-- ==== Sys2Proof/Word.lean ====
section
/-! DEFINITION. The word types of ACCODEC (spec/00_scope.md R8, R9, R10). Every value is unsigned and bit 0 is its
least significant bit (R10), which is how `BitVec` numbers its bits. -/

namespace Sys2Proof

/-- One byte: an access byte, a register location, the `DATA` of a transaction (R8, R9, R40). -/
abbrev Byte := BitVec 8

/-- One bit plane: C1, C2 or C3 of blocks 0 to 3, block `k` at bit `k` (00_scope.md glossary; R48). -/
abbrev Nibble := BitVec 4

/-- The 3 by 4 bit matrix in the plane-major packing of R22: bit `4*c + k` is plane `c`, block `k`. -/
abbrev Mat := BitVec 12

/-- One bit per redundancy check: bit 0 C1, bit 1 C2, bit 2 C3 (R26). -/
abbrev Viol := BitVec 3

/-- A host transaction word (R60). -/
abbrev TxnWord := BitVec 12

/-- A 3-bit register address (R9, R62). -/
abbrev RegAddr := BitVec 3

end Sys2Proof
end

