-- ==== Sys2Proof/Syntax.lean ====
section
/-! DEFINITION. The transactions a host can issue, one constructor of `Instr` for each row of spec/opcode_table.json,
in the table's order (spec/30_encoding.md R69), and the names the encoding tables use. -/

namespace Sys2Proof

/-- The eight register locations, in address order (spec/20_memory.md R41). -/
inductive Reg where
  | acb0 | acb1 | acb2 | rsvd3 | matLo | matHi | status | cmd
deriving DecidableEq, Repr

/-- A decoded host transaction. The commands are writes to CMD whose code the decoder has already told apart
(R69); they take their operands from ACB and MAT (R63). -/
inductive Instr where
  /-- RD, a register read (R110). A read word's DATA is ignored, so it is no operand. -/
  | rd (reg : Reg)
  /-- WR ACB0 (R111). -/
  | wrAcb0 (data : Byte)
  /-- WR ACB1 (R112). -/
  | wrAcb1 (data : Byte)
  /-- WR ACB2 (R113). -/
  | wrAcb2 (data : Byte)
  /-- WR RSVD3, the reserved address 3 (R114). -/
  | wrRsvd3 (data : Byte)
  /-- WR MAT_LO (R115). -/
  | wrMatLo (data : Byte)
  /-- WR MAT_HI (R116). -/
  | wrMatHi (data : Byte)
  /-- WR STATUS, the read-only address 6 (R117). -/
  | wrStatus (data : Byte)
  /-- Command code 0x00 (R131). -/
  | nop
  /-- Command code 0x01 (R132). -/
  | decode
  /-- Command code 0x02 (R133). -/
  | encode
  /-- Command code 0x03 (R134). -/
  | check
  /-- A reserved command code, 0x04 to 0xFF (R135). -/
  | cmdReserved (code : Byte)
deriving DecidableEq, Repr

/-- The rows of spec/opcode_table.json, in its order. -/
inductive Mnemonic where
  | RD | WR_ACB0 | WR_ACB1 | WR_ACB2 | WR_RSVD3 | WR_MAT_LO | WR_MAT_HI | WR_STATUS
  | NOP | DECODE | ENCODE | CHECK | CMD_RESERVED
deriving DecidableEq, Repr

/-- One row of spec/opcode_table.json: a word `w` is of the row when `w &&& mask = pattern`. -/
structure OpcodeRow where
  name    : Mnemonic
  pattern : TxnWord
  mask    : TxnWord
deriving DecidableEq, Repr

/-- Why a number is no transaction. It is the only way decoding can fail: all 4096 twelve-bit words are defined
(R60, R69) and nothing else is an encoding. -/
inductive DecodeError where
  /-- The number does not fit the 12 bits of a transaction word. -/
  | notATransactionWord (w : Nat)
deriving DecidableEq, Repr

end Sys2Proof
end

