-- ==== Sys2Proof/WellFormed.lean ====
section
/-! DEFINITION. Which `Instr` terms stand for a transaction. The types already bound every operand; the one thing they
do not say is that a reserved command carries a reserved code (spec/30_encoding.md R64, R65). -/

namespace Sys2Proof

/-- A term is well formed when its operands have the values its row of R69 gives them. -/
def Instr.wf : Instr → Bool
  | .rd _ => true
  | .wrAcb0 _ => true
  | .wrAcb1 _ => true
  | .wrAcb2 _ => true
  | .wrRsvd3 _ => true
  | .wrMatLo _ => true
  | .wrMatHi _ => true
  | .wrStatus _ => true
  | .nop => true
  | .decode => true
  | .encode => true
  | .check => true
  | .cmdReserved code => 0x04 ≤ code.toNat

end Sys2Proof
end

