-- ==== Sys2Proof/Decode.lean ====
section
/-! DEFINITION. The decoder of host transaction words and its inverse, from spec/30_encoding.md (R60 to R65, R69) and
spec/20_memory.md R41; then the opcode table itself. -/

namespace Sys2Proof

/-- The register at a 3-bit address (R41, R62). -/
def Reg.ofAddr (a : RegAddr) : Reg :=
  match a.toNat with
  | 0 => .acb0
  | 1 => .acb1
  | 2 => .acb2
  | 3 => .rsvd3
  | 4 => .matLo
  | 5 => .matHi
  | 6 => .status
  | _ => .cmd

/-- The address of a register (R41). -/
def Reg.addr : Reg → RegAddr
  | .acb0 => 0
  | .acb1 => 1
  | .acb2 => 2
  | .rsvd3 => 3
  | .matLo => 4
  | .matHi => 5
  | .status => 6
  | .cmd => 7

/-- `RW = w[11]`: 0 a read, 1 a write (R60, R61). -/
def rwField (w : TxnWord) : BitVec 1 := w.extractLsb' 11 1

/-- `ADDR = w[10:8]`, used as it is (R62). -/
def addrField (w : TxnWord) : RegAddr := w.extractLsb' 8 3

/-- `DATA = w[7:0]`, the only immediate (R63). -/
def dataField (w : TxnWord) : Byte := w.extractLsb' 0 8

/-- The commands of R64, and every other code as a reserved one (R65). -/
def decodeCommand (code : Byte) : Instr :=
  match code.toNat with
  | 0x00 => .nop
  | 0x01 => .decode
  | 0x02 => .encode
  | 0x03 => .check
  | _ => .cmdReserved code

/-- `decodeWord` of R69, total on all 4096 words. -/
def decodeWord (w : TxnWord) : Instr :=
  if rwField w = 0 then .rd (Reg.ofAddr (addrField w))
  else
    match Reg.ofAddr (addrField w) with
    | .acb0 => .wrAcb0 (dataField w)
    | .acb1 => .wrAcb1 (dataField w)
    | .acb2 => .wrAcb2 (dataField w)
    | .rsvd3 => .wrRsvd3 (dataField w)
    | .matLo => .wrMatLo (dataField w)
    | .matHi => .wrMatHi (dataField w)
    | .status => .wrStatus (dataField w)
    | .cmd => decodeCommand (dataField w)

/-- A number as a transaction word: twelve bits, or refused by name (R60, R70). -/
def readWord (w : Nat) : Except DecodeError TxnWord :=
  if w < 4096 then .ok (BitVec.ofNat 12 w) else .error (.notATransactionWord w)

/-- The decoder on any number: the transaction, or the name of what is wrong with it. -/
def decodeNat (w : Nat) : Except DecodeError Instr := (readWord w).map decodeWord

/-- A word from its three fields, `{RW, ADDR, DATA}` (R60). -/
def packWord (rw : BitVec 1) (reg : Reg) (data : Byte) : TxnWord := rw ++ reg.addr ++ data

/-- The word of a register read; the assembler writes 0 as its DATA (R63, R71). -/
def readTxn (reg : Reg) : TxnWord := packWord 0 reg 0

/-- The word of a register write (R71). -/
def writeTxn (reg : Reg) (data : Byte) : TxnWord := packWord 1 reg data

/-- The transaction word of an instruction (R60, R63, R64, R69). -/
def encode : Instr → TxnWord
  | .rd reg => readTxn reg
  | .wrAcb0 data => writeTxn .acb0 data
  | .wrAcb1 data => writeTxn .acb1 data
  | .wrAcb2 data => writeTxn .acb2 data
  | .wrRsvd3 data => writeTxn .rsvd3 data
  | .wrMatLo data => writeTxn .matLo data
  | .wrMatHi data => writeTxn .matHi data
  | .wrStatus data => writeTxn .status data
  | .nop => writeTxn .cmd 0x00
  | .decode => writeTxn .cmd 0x01
  | .encode => writeTxn .cmd 0x02
  | .check => writeTxn .cmd 0x03
  | .cmdReserved code => writeTxn .cmd code

/-- The row of spec/opcode_table.json an instruction belongs to. -/
def Instr.row : Instr → Mnemonic
  | .rd _ => .RD
  | .wrAcb0 _ => .WR_ACB0
  | .wrAcb1 _ => .WR_ACB1
  | .wrAcb2 _ => .WR_ACB2
  | .wrRsvd3 _ => .WR_RSVD3
  | .wrMatLo _ => .WR_MAT_LO
  | .wrMatHi _ => .WR_MAT_HI
  | .wrStatus _ => .WR_STATUS
  | .nop => .NOP
  | .decode => .DECODE
  | .encode => .ENCODE
  | .check => .CHECK
  | .cmdReserved _ => .CMD_RESERVED

/-- The bits of spec/opcode_table.json, row by row: pattern and mask. -/
def opcodeRow : Mnemonic → OpcodeRow
  | .RD => ⟨.RD, 0x000, 0x800⟩
  | .WR_ACB0 => ⟨.WR_ACB0, 0x800, 0xF00⟩
  | .WR_ACB1 => ⟨.WR_ACB1, 0x900, 0xF00⟩
  | .WR_ACB2 => ⟨.WR_ACB2, 0xA00, 0xF00⟩
  | .WR_RSVD3 => ⟨.WR_RSVD3, 0xB00, 0xF00⟩
  | .WR_MAT_LO => ⟨.WR_MAT_LO, 0xC00, 0xF00⟩
  | .WR_MAT_HI => ⟨.WR_MAT_HI, 0xD00, 0xF00⟩
  | .WR_STATUS => ⟨.WR_STATUS, 0xE00, 0xF00⟩
  | .NOP => ⟨.NOP, 0xF00, 0xFFF⟩
  | .DECODE => ⟨.DECODE, 0xF01, 0xFFF⟩
  | .ENCODE => ⟨.ENCODE, 0xF02, 0xFFF⟩
  | .CHECK => ⟨.CHECK, 0xF03, 0xFFF⟩
  | .CMD_RESERVED => ⟨.CMD_RESERVED, 0xF00, 0xF00⟩

/-- A word is of a row when its masked bits are the row's pattern. -/
def OpcodeRow.hits (r : OpcodeRow) (w : TxnWord) : Bool := w &&& r.mask == r.pattern

/-- spec/opcode_table.json, top to bottom: the exact command rows stand before the CMD_RESERVED row, which is the
order R69 asks for. -/
def opcodeTable : List OpcodeRow :=
  [.RD, .WR_ACB0, .WR_ACB1, .WR_ACB2, .WR_RSVD3, .WR_MAT_LO, .WR_MAT_HI, .WR_STATUS,
    .NOP, .DECODE, .ENCODE, .CHECK, .CMD_RESERVED].map opcodeRow

/-- The transaction word among the low `nbits` bits of `w`, the bits above being 0 (the host's numbering of a table
row). Assumption log 2. -/
def tableWord (nbits w : Nat) : Option TxnWord := (readWord (w % 2 ^ nbits)).toOption

/-- What the decoder reads from a table row's word; none where the number is no 12-bit word. -/
def decodeTableWord (nbits w : Nat) : Option Instr := (tableWord nbits w).map decodeWord

end Sys2Proof
end

