-- ==== Sys2Proof/Config.lean ====
section
/-! DEFINITION. What the spec leaves to a system or leaves unknown. Each constant is opaque: nothing in Lean can
evaluate it, so every claim that mentions one holds whatever its value is. -/

namespace Sys2Proof

/-- How many ACCODEC instances a system holds beyond the first; `N_INST` itself is OPEN (spec/00_scope.md R9,
92_eei_decisions.md D18, 93_implementation_defined.md I11). Assumption log 6. -/
opaque Config.extraInstances : Nat

/-- `N_INST`, at least 1 (R9). -/
def Config.nInst : Nat := Config.extraInstances + 1

/-- What `ACB[i]` holds from power-on until the first reset: any value (R181, 93_implementation_defined.md I5).
Assumption log 5. -/
opaque Config.powerOnAcb : Nat → Byte

/-- What `MAT` holds from power-on until the first reset: any value (R181, I5). Assumption log 5. -/
opaque Config.powerOnMat : Mat

/-- What the six defined bits of `STATUS` hold from power-on until the first reset: any value (R181, I5).
Assumption log 5. -/
opaque Config.powerOnStatus : BitVec 6

end Sys2Proof
end

