-- ==== Sys2Proof/Machine/State.lean ====
section
/-! DEFINITION. The state of one ACCODEC instance (spec/10_state.md R20 to R31), its host port, and its reset. -/

namespace Sys2Proof.Machine

/-- `STATUS.ERR` (R25). -/
inductive ErrCode where
  | none
  | redundancyViolation
  /-- Reserved for the name; the block never writes it (R25, R153). -/
  | shapeMismatch
  | illegalCommand
deriving DecidableEq, Repr

/-- `STATUS`: its six defined bits. Bits 7:6 are hard-wired to 0 (R24) and appear only in the byte a read returns. -/
structure Status where
  valid : Bool
  err   : ErrCode
  viol  : Viol
deriving DecidableEq, Repr

/-- The architectural state of one instance: exactly the five elements of R20. CMD is a port and stores nothing (R27);
there is no program counter, register file, memory or hidden state (R28, R29, R30, R40). -/
structure Block where
  acb0   : Byte
  acb1   : Byte
  acb2   : Byte
  mat    : Mat
  status : Status
deriving DecidableEq, Repr

/-- What the host can do to the block: issue a transaction word, or assert the external reset between two
transactions (spec/60_exceptions.md R165, 70_reset_and_hazards.md R180). -/
inductive HostEvent where
  | txn (w : TxnWord)
  | reset
deriving DecidableEq, Repr

/-- The machine: the block, and beside it the host port, which is the model's own way of making a step a function of
the state. `pending` is what the host does next, first event first (the program of R188); `reads` is the bytes its RD
words have returned in this run, oldest first (R188). Assumption log 1. -/
structure State where
  block   : Block
  pending : List HostEvent
  reads   : List Byte
deriving DecidableEq, Repr

/-- There is no fault: every transaction from every state has exactly one successor (R150, R169). Nobody can raise one,
so the type has no constructor. -/
inductive Fault : Type
deriving DecidableEq, Repr

/-- There is no refusal either (R150, R169). -/
inductive Refusal where
  /-- Raised only by an arm of `exec` for an instruction without a meaning; no arm is such an arm. Safe: the model
  stops where the block goes on. -/
  | notModelled (mnemonic : String)
deriving DecidableEq, Repr

/-- The block after reset (R31, R180): ACB is the encoding of the zero matrix. -/
def Block.reset : Block where
  acb0 := 0xFF
  acb1 := 0x0F
  acb2 := 0x00
  mat := 0x000
  status := { valid := false, err := .none, viol := 0 }

/-- The machine after reset: the block of R31, nothing issued yet and nothing read yet. -/
def State.reset : State where
  block := Block.reset
  pending := []
  reads := []

end Sys2Proof.Machine
end

