-- ==== Sys2Proof/Machine/Flags.lean ====
section
/-! DEFINITION. STATUS: how its fields make a byte, and the records a command leaves in it (spec/10_state.md R24 to R26,
30_encoding.md R68, 60_exceptions.md R152 to R155). -/

namespace Sys2Proof.Machine

/-- The number of an error (R25). -/
def ErrCode.code : ErrCode → BitVec 2
  | .none => 0
  | .redundancyViolation => 1
  | .shapeMismatch => 2
  | .illegalCommand => 3

/-- The error of a number (R25). -/
def ErrCode.ofCode (c : BitVec 2) : ErrCode :=
  match c.toNat with
  | 0 => .none
  | 1 => .redundancyViolation
  | 2 => .shapeMismatch
  | _ => .illegalCommand

/-- STATUS as a read returns it: `{0b00, VIOL[2:0], ERR[1:0], VALID}` (R68). -/
def Status.toByte (st : Status) : Byte :=
  (0 : BitVec 2) ++ st.viol ++ st.err.code ++ BitVec.ofBool st.valid

/-- STATUS from its six defined bits, laid out as in R68. -/
def Status.ofBits (v : BitVec 6) : Status where
  valid := v.getLsbD 0
  err := ErrCode.ofCode (v.extractLsb' 1 2)
  viol := v.extractLsb' 3 3

/-- The errors a command of the block can raise (R151). ShapeMismatch is not among them: only the host adapter returns
it (R153). -/
inductive BlockError where
  | redundancyViolation (viol : Viol)
  | illegalCommand
deriving DecidableEq, Repr

/-- The record of a successful DECODE, ENCODE or CHECK (R155). -/
def Status.success : Status where
  valid := true
  err := .none
  viol := 0

/-- The record of an error (R152, R154). -/
def Status.ofError : BlockError → Status
  | .redundancyViolation viol => { valid := false, err := .redundancyViolation, viol := viol }
  | .illegalCommand => { valid := false, err := .illegalCommand, viol := 0 }

end Sys2Proof.Machine
end

