-- ==== Sys2Proof/Machine/Ops.lean ====
section
/-! DEFINITION. The operations the transactions share: recording a success, raising an error, the reset event, and the
two ends of the host port. -/

namespace Sys2Proof.Machine

/-- A command succeeded: STATUS takes the success record and nothing else changes (spec/60_exceptions.md R155). -/
def Block.succeed (b : Block) : Block := { b with status := Status.success }

/-- `raise E(info)`: what this machine has in place of an exception. STATUS takes the record of the error, replacing the
previous one completely; ACB and MAT are not written and control goes nowhere
(spec/00_scope.md R12, 60_exceptions.md R150, R152, R154, R157, R158). -/
def Block.raise (e : BlockError) (b : Block) : Block := { b with status := Status.ofError e }

/-- Apply an effect on the block, leaving the host port alone. -/
def State.onBlock (f : Block → Block) (s : State) : State := { s with block := f s.block }

/-- An RD returns a byte to the host, after those of the earlier RDs (R188). -/
def State.respond (x : Byte) (s : State) : State := { s with reads := s.reads ++ [x] }

/-- The host's next event, and the state with that event taken off the port. -/
def State.fetch (s : State) : Option (HostEvent × State) :=
  match s.pending with
  | [] => none
  | e :: rest => some (e, { s with pending := rest })

/-- The reset event (spec/70_reset_and_hazards.md R180): every state element at its reset value in one step. It ends one
run and starts another (R188), so no byte of the ended run is left; what the host does next is the host's and stays.
Assumption log 4. -/
def State.resetEvent (s : State) : State := { State.reset with pending := s.pending }

/-- From power-on until the first reset each register holds any value (R181, 93_implementation_defined.md I5).
Assumption log 5. -/
def State.powerOn : State where
  block :=
    { acb0 := Config.powerOnAcb 0
      acb1 := Config.powerOnAcb 1
      acb2 := Config.powerOnAcb 2
      mat := Config.powerOnMat
      status := Status.ofBits Config.powerOnStatus }
  pending := []
  reads := []

end Sys2Proof.Machine
end

