-- ==== Sys2Proof/Machine/Operands.lean ====
section
/-! DEFINITION. The register space: what a read of each location returns and what a write of each data register stores
(spec/20_memory.md R41, R43, R50; 41_bus_transactions.md R110 to R117), and the matrix's cells and columns
(10_state.md R22, R23). -/

namespace Sys2Proof.Machine

/-- `MemRead(addr, 1)` (R110): reserved locations and bits read 0 (R50), and CMD reads `0x00` (R27). Reading has no side
effect (R43). -/
def Block.memRead (b : Block) : Reg → Byte
  | .acb0 => b.acb0
  | .acb1 => b.acb1
  | .acb2 => b.acb2
  | .rsvd3 => 0x00
  | .matLo => b.mat.extractLsb' 0 8
  | .matHi => (b.mat.extractLsb' 8 4).setWidth 8
  | .status => b.status.toByte
  | .cmd => 0x00

/-- `ACB[0] <- data` (R111). -/
def Block.writeAcb0 (data : Byte) (b : Block) : Block := { b with acb0 := data }

/-- `ACB[1] <- data` (R112). -/
def Block.writeAcb1 (data : Byte) (b : Block) : Block := { b with acb1 := data }

/-- `ACB[2] <- data` (R113). -/
def Block.writeAcb2 (data : Byte) (b : Block) : Block := { b with acb2 := data }

/-- `MAT[7:0] <- data`; `MAT[11:8]` is unchanged (R115). -/
def Block.writeMatLo (data : Byte) (b : Block) : Block := { b with mat := b.mat.extractLsb' 8 4 ++ data }

/-- `MAT[11:8] <- data[3:0]`; `data[7:4]` is discarded and `MAT[7:0]` is unchanged (R116). -/
def Block.writeMatHi (data : Byte) (b : Block) : Block :=
  { b with mat := data.extractLsb' 0 4 ++ b.mat.extractLsb' 0 8 }

/-- `M[c][k] = MAT[4*c + k]`: plane `c` (0 C1, 1 C2, 2 C3) of block `k` (R22). -/
def cell (m : Mat) (c k : Nat) : Bool := m.getLsbD (4 * c + k)

/-- Column `k`, `(C1_k, C2_k, C3_k)`: the block's per-block output (R23). -/
def column (m : Mat) (k : Nat) : Bool × Bool × Bool := (cell m 0 k, cell m 1 k, cell m 2 k)

end Sys2Proof.Machine
end

