-- ==== Sys2Proof/Machine/Codec.lean ====
section
/-! DEFINITION. The codec core (spec/40_codec_core.md R80 to R86): pure, total functions of the access-condition field and
the matrix. They use only complement, concatenation, fixed bit slices and equality at 4 and 8 bits (R93). -/

namespace Sys2Proof.Machine

/-- The AccessByteTriple: bytes 0, 1 and 2 of the field, which are tag bytes 6, 7 and 8 (R21, R46). -/
structure Triple where
  b0 : Byte
  b1 : Byte
  b2 : Byte
deriving DecidableEq, Repr

/-- `Ok(x)` or `Err(E, info)`; a failure carries no partial result (spec/00_scope.md R13). -/
inductive Result (ε α : Type) where
  | ok (x : α)
  | err (e : ε)
deriving DecidableEq, Repr

/-- The field the block holds (R21). -/
def Block.triple (b : Block) : Triple := ⟨b.acb0, b.acb1, b.acb2⟩

/-- The field the block is given; all 24 bits are written (R133). -/
def Block.setTriple (t : Triple) (b : Block) : Block := { b with acb0 := t.b0, acb1 := t.b1, acb2 := t.b2 }

/-- `b[7:4]` (R11). -/
def hiNibble (b : Byte) : Nibble := b.extractLsb' 4 4

/-- `b[3:0]` (R11). -/
def loNibble (b : Byte) : Nibble := b.extractLsb' 0 4

/-- `{hi, lo}` (R11). -/
def joinNibbles (hi lo : Nibble) : Byte := hi ++ lo

/-- The C1 plane of a matrix, `m[3:0]` (R22, R86). -/
def planeC1 (m : Mat) : Nibble := m.extractLsb' 0 4

/-- The C2 plane of a matrix, `m[7:4]` (R22, R86). -/
def planeC2 (m : Mat) : Nibble := m.extractLsb' 4 4

/-- The C3 plane of a matrix, `m[11:8]` (R22, R86). -/
def planeC3 (m : Mat) : Nibble := m.extractLsb' 8 4

/-- The matrix of three planes, `{C3, C2, C1}` (R22, R84). -/
def packPlanes (c1 c2 c3 : Nibble) : Mat := c3 ++ c2 ++ c1

/-- `CheckC1` (R80): "byte[1] high nibble == ~byte[0] low nibble", the complement taken at 4 bits (R93). -/
def checkC1 (b0 b1 : Byte) : Bool := hiNibble b1 == ~~~loNibble b0

/-- `CheckC2` (R81): "byte[2] low nibble == ~byte[0] high nibble". -/
def checkC2 (b0 b2 : Byte) : Bool := loNibble b2 == ~~~hiNibble b0

/-- `CheckC3` (R82): "byte[2] high nibble == ~byte[1] low nibble". -/
def checkC3 (b1 b2 : Byte) : Bool := hiNibble b2 == ~~~loNibble b1

/-- The `viol` output of `Validate` (R83): all three checks are evaluated, and bit 0 reports C1, bit 1 C2, bit 2 C3. -/
def violations (t : Triple) : Viol :=
  BitVec.ofBool (!checkC3 t.b1 t.b2) ++ BitVec.ofBool (!checkC2 t.b0 t.b2) ++ BitVec.ofBool (!checkC1 t.b0 t.b1)

/-- `Validate` (R83): the pair `(valid, viol)`. -/
def validate (t : Triple) : Bool × Viol := (violations t == 0, violations t)

/-- `Extract` (R84): the true copies; byte 0 is not read. -/
def extract (t : Triple) : Mat := packPlanes (hiNibble t.b1) (loNibble t.b2) (hiNibble t.b2)

/-- `Decode` (R85). -/
def decodeTriple (t : Triple) : Result BlockError Mat :=
  match validate t with
  | (true, _) => .ok (extract t)
  | (false, viol) => .err (.redundancyViolation viol)

/-- `Encode` (R86): `b0 = {~C2, ~C1}`, `b1 = {C1, ~C3}`, `b2 = {C3, C2}`. -/
def encodeMat (m : Mat) : Triple where
  b0 := joinNibbles (~~~planeC2 m) (~~~planeC1 m)
  b1 := joinNibbles (planeC1 m) (~~~planeC3 m)
  b2 := joinNibbles (planeC3 m) (planeC2 m)

end Sys2Proof.Machine
end

