-- ==== Sys2Proof/Machine/Commands.lean ====
section
/-! DEFINITION. The commands (spec/42_commands.md R130 to R135): each applies one function of the codec core to the
registers as they stand before the command and records the outcome in STATUS. -/

namespace Sys2Proof.Machine

/-- DECODE (R132): MAT is written on success only; on failure it keeps its value. -/
def Block.runDecode (b : Block) : Block :=
  match decodeTriple b.triple with
  | .ok m => { b with mat := m }.succeed
  | .err e => b.raise e

/-- ENCODE (R133): it cannot fail. -/
def Block.runEncode (b : Block) : Block := (b.setTriple (encodeMat b.mat)).succeed

/-- CHECK (R134): it writes STATUS only. -/
def Block.runCheck (b : Block) : Block :=
  match validate b.triple with
  | (true, _) => b.succeed
  | (false, viol) => b.raise (.redundancyViolation viol)

/-- A reserved command code (R135): IllegalCommand; ACB is not examined (R156). -/
def Block.runReserved (b : Block) : Block := b.raise .illegalCommand

/-- `Execute(d)` (R130), total over all 256 codes. -/
def Block.execute (d : Byte) (b : Block) : Block :=
  match d.toNat with
  | 0x00 => b
  | 0x01 => b.runDecode
  | 0x02 => b.runEncode
  | 0x03 => b.runCheck
  | _ => b.runReserved

/-- NOP (R131): nothing, STATUS included. -/
def execNop (s : State) : Host.Outcome State Fault Refusal := .next s

/-- DECODE (R132). -/
def execDecode (s : State) : Host.Outcome State Fault Refusal := .next (s.onBlock Block.runDecode)

/-- ENCODE (R133). -/
def execEncode (s : State) : Host.Outcome State Fault Refusal := .next (s.onBlock Block.runEncode)

/-- CHECK (R134). -/
def execCheck (s : State) : Host.Outcome State Fault Refusal := .next (s.onBlock Block.runCheck)

/-- A reserved code (R135). The code written is not recorded (R151). -/
def execCmdReserved (_code : Byte) (s : State) : Host.Outcome State Fault Refusal := .next (s.onBlock Block.runReserved)

end Sys2Proof.Machine
end

