-- ==== Sys2Proof/Machine/Transactions.lean ====
section
/-! DEFINITION. The meanings of RD and of the writes to the registers other than CMD
(spec/41_bus_transactions.md R110 to R117). No data write changes STATUS (R43, 92_eei_decisions.md D14). -/

namespace Sys2Proof.Machine

/-- RD (R110): the byte at the location goes to the host; no register changes. -/
def execRd (reg : Reg) (s : State) : Host.Outcome State Fault Refusal := .next (s.respond (s.block.memRead reg))

/-- WR ACB0 (R111). -/
def execWrAcb0 (data : Byte) (s : State) : Host.Outcome State Fault Refusal := .next (s.onBlock (Block.writeAcb0 data))

/-- WR ACB1 (R112). -/
def execWrAcb1 (data : Byte) (s : State) : Host.Outcome State Fault Refusal := .next (s.onBlock (Block.writeAcb1 data))

/-- WR ACB2 (R113). -/
def execWrAcb2 (data : Byte) (s : State) : Host.Outcome State Fault Refusal := .next (s.onBlock (Block.writeAcb2 data))

/-- WR RSVD3 (R114): the byte is ignored. -/
def execWrRsvd3 (_data : Byte) (s : State) : Host.Outcome State Fault Refusal := .next s

/-- WR MAT_LO (R115). -/
def execWrMatLo (data : Byte) (s : State) : Host.Outcome State Fault Refusal := .next (s.onBlock (Block.writeMatLo data))

/-- WR MAT_HI (R116). -/
def execWrMatHi (data : Byte) (s : State) : Host.Outcome State Fault Refusal := .next (s.onBlock (Block.writeMatHi data))

/-- WR STATUS (R117): the register is read-only and the byte is ignored. -/
def execWrStatus (_data : Byte) (s : State) : Host.Outcome State Fault Refusal := .next s

end Sys2Proof.Machine
end

