-- ==== Sys2Proof/Machine/Dispatch.lean ====
section
/-! DEFINITION. One arm per constructor of Instr. -/

namespace Sys2Proof.Machine

def exec (i : Instr) (s : State) : Host.Outcome State Fault Refusal :=
  match i with
  | .rd reg => Sys2Proof.Machine.execRd reg s
  | .wrAcb0 data => Sys2Proof.Machine.execWrAcb0 data s
  | .wrAcb1 data => Sys2Proof.Machine.execWrAcb1 data s
  | .wrAcb2 data => Sys2Proof.Machine.execWrAcb2 data s
  | .wrRsvd3 data => Sys2Proof.Machine.execWrRsvd3 data s
  | .wrMatLo data => Sys2Proof.Machine.execWrMatLo data s
  | .wrMatHi data => Sys2Proof.Machine.execWrMatHi data s
  | .wrStatus data => Sys2Proof.Machine.execWrStatus data s
  | .nop => Sys2Proof.Machine.execNop s
  | .decode => Sys2Proof.Machine.execDecode s
  | .encode => Sys2Proof.Machine.execEncode s
  | .check => Sys2Proof.Machine.execCheck s
  | .cmdReserved code => Sys2Proof.Machine.execCmdReserved code s

end Sys2Proof.Machine
end

