-- ==== Sys2Proof/Machine/Step.lean ====
section
/-! DEFINITION. One step: the host's next event, applied whole (spec/20_memory.md R45, 70_reset_and_hazards.md R187). -/

namespace Sys2Proof.Machine

/-- A transaction word runs the transaction it decodes to (R69, R188); a reset event resets (R180); with no event the
block is idle and keeps its state (60_exceptions.md R164). Assumption log 1 and 3. -/
def step (s : State) : Host.Outcome State Fault Refusal :=
  match s.fetch with
  | none => .next s
  | some (.txn w, s') => exec (decodeWord w) s'
  | some (.reset, s') => .next s'.resetEvent

/-- The host's next event becomes the transaction word of a table row, before all it would have done; nothing else
changes. A number that is no transaction word cannot be issued and leaves the state alone. Assumption log 2. -/
def State.withFetchWord (s : State) (nbits w : Nat) : State :=
  match tableWord nbits w with
  | some v => { s with pending := .txn v :: s.pending }
  | none => s

end Sys2Proof.Machine
end

