-- ==== Sys2Proof/Machine/Assembler.lean ====
section
/-! DEFINITION. The host assembler (spec/30_encoding.md R71, R72): the lines it knows, the words each stands for, and the
text of a line, read and written. Text is a list of characters. -/

namespace Sys2Proof.Machine

/-- A line of host assembly: the two transactions of R71 and the pseudo-instructions of R72. -/
inductive AsmLine where
  | rd (reg : Reg)
  | wr (reg : Reg) (data : Byte)
  | nop
  | decode
  | encode
  | check
  | cmd (code : Byte)
  | ldacb (t : Triple)
  | ldmat (m : Mat)
  | rdacb
  | rdmat
  | rdst
deriving DecidableEq, Repr

/-- The words a line assembles to (R71, R72). -/
def AsmLine.words : AsmLine → List TxnWord
  | .rd reg => [readTxn reg]
  | .wr reg data => [writeTxn reg data]
  | .nop => [writeTxn .cmd 0x00]
  | .decode => [writeTxn .cmd 0x01]
  | .encode => [writeTxn .cmd 0x02]
  | .check => [writeTxn .cmd 0x03]
  | .cmd code => [writeTxn .cmd code]
  | .ldacb t => [writeTxn .acb0 t.b0, writeTxn .acb1 t.b1, writeTxn .acb2 t.b2]
  | .ldmat m => [writeTxn .matLo (m.extractLsb' 0 8), writeTxn .matHi ((m.extractLsb' 8 4).setWidth 8)]
  | .rdacb => [readTxn .acb0, readTxn .acb1, readTxn .acb2]
  | .rdmat => [readTxn .matLo, readTxn .matHi]
  | .rdst => [readTxn .status]

/-- The words of a list of lines, in order. -/
def asmWords (ls : List AsmLine) : List TxnWord := ls.flatMap AsmLine.words

/-- The register names of R71. -/
def Reg.name : Reg → List Char
  | .acb0 => ['A', 'C', 'B', '0']
  | .acb1 => ['A', 'C', 'B', '1']
  | .acb2 => ['A', 'C', 'B', '2']
  | .rsvd3 => ['R', 'S', 'V', 'D', '3']
  | .matLo => ['M', 'A', 'T', '_', 'L', 'O']
  | .matHi => ['M', 'A', 'T', '_', 'H', 'I']
  | .status => ['S', 'T', 'A', 'T', 'U', 'S']
  | .cmd => ['C', 'M', 'D']

/-- The eight registers in address order. -/
def allRegs : List Reg := [.acb0, .acb1, .acb2, .rsvd3, .matLo, .matHi, .status, .cmd]

/-- The value of a hexadecimal digit, of either case. Assumption log 7. -/
def hexValue (c : Char) : Option Nat :=
  let n := c.toNat
  if 48 ≤ n ∧ n ≤ 57 then some (n - 48)
  else if 65 ≤ n ∧ n ≤ 70 then some (n - 55)
  else if 97 ≤ n ∧ n ≤ 102 then some (n - 87)
  else none

/-- The upper-case hexadecimal digit of a value below 16. -/
def hexDigit (v : Nibble) : Char :=
  if v.toNat < 10 then Char.ofNat (48 + v.toNat) else Char.ofNat (55 + v.toNat)

/-- A register operand: a name, or a decimal address 0 to 7 (R71). -/
def parseReg (tok : List Char) : Option Reg :=
  match allRegs.find? (fun r => Reg.name r == tok) with
  | some r => some r
  | none =>
    match tok with
    | [c] => if 48 ≤ c.toNat ∧ c.toNat ≤ 55 then some (Reg.ofAddr (BitVec.ofNat 3 (c.toNat - 48))) else none
    | _ => none

/-- Hexadecimal digits, most significant first, onto a value already read. -/
def hexDigits (acc : Nat) : List Char → Option Nat
  | [] => some acc
  | c :: cs =>
    match hexValue c with
    | some v => hexDigits (16 * acc + v) cs
    | none => none

/-- A literal `0x` and exactly `n` hexadecimal digits (R71: `0xHH`; R72: `0xMMM`). Assumption log 7. -/
def parseHex (n : Nat) (tok : List Char) : Option Nat :=
  match tok with
  | '0' :: 'x' :: ds => if ds.length = n then hexDigits 0 ds else none
  | _ => none

/-- A byte operand `0xHH`. -/
def parseByte (tok : List Char) : Option Byte := (parseHex 2 tok).map (BitVec.ofNat 8)

/-- A token that has ended, if it has a character. -/
def flushToken (cur : List Char) : List (List Char) := if cur = [] then [] else [cur]

/-- The tokens of a line: blanks separate them and a comma is one of its own. `cur` is the token being read. -/
def tokenize (cur : List Char) : List Char → List (List Char)
  | [] => flushToken cur
  | c :: cs =>
    if c = ' ' ∨ c = '\t' then flushToken cur ++ tokenize [] cs
    else if c = ',' then flushToken cur ++ [','] :: tokenize [] cs
    else tokenize (cur ++ [c]) cs

/-- `;` starts a comment (R71). -/
def stripComment (line : List Char) : List Char := line.takeWhile (fun c => c != ';')

/-- A mnemonic without its case (R71). -/
def foldCase (tok : List Char) : List Char := tok.map Char.toLower

/-- The operands of a `wr` line. -/
def parseWr : List (List Char) → Option AsmLine
  | [reg, [','], data] => do return .wr (← parseReg reg) (← parseByte data)
  | _ => none

/-- The operands of an `ldacb` line. -/
def parseLdacb : List (List Char) → Option AsmLine
  | [b0, [','], b1, [','], b2] => do return .ldacb ⟨← parseByte b0, ← parseByte b1, ← parseByte b2⟩
  | _ => none

/-- A line that takes no operand. -/
def parseBare (line : AsmLine) : List (List Char) → Option AsmLine
  | [] => some line
  | _ :: _ => none

/-- A line from its mnemonic, case folded, and its operand tokens (R71, R72). -/
def parseOp (op : List Char) (args : List (List Char)) : Option AsmLine :=
  if op = ['r', 'd'] then
    match args with
    | [reg] => (parseReg reg).map .rd
    | _ => none
  else if op = ['w', 'r'] then parseWr args
  else if op = ['n', 'o', 'p'] then parseBare .nop args
  else if op = ['d', 'e', 'c', 'o', 'd', 'e'] then parseBare .decode args
  else if op = ['e', 'n', 'c', 'o', 'd', 'e'] then parseBare .encode args
  else if op = ['c', 'h', 'e', 'c', 'k'] then parseBare .check args
  else if op = ['c', 'm', 'd'] then
    match args with
    | [code] => (parseByte code).map .cmd
    | _ => none
  else if op = ['l', 'd', 'a', 'c', 'b'] then parseLdacb args
  else if op = ['l', 'd', 'm', 'a', 't'] then
    match args with
    | [m] => (parseHex 3 m).map fun v => .ldmat (BitVec.ofNat 12 v)
    | _ => none
  else if op = ['r', 'd', 'a', 'c', 'b'] then parseBare .rdacb args
  else if op = ['r', 'd', 'm', 'a', 't'] then parseBare .rdmat args
  else if op = ['r', 'd', 's', 't'] then parseBare .rdst args
  else none

/-- The line of a token list that holds a mnemonic. -/
def parseTokens : List (List Char) → Option AsmLine
  | [] => none
  | op :: args => parseOp (foldCase op) args

/-- The line in a text that holds one. -/
def parseLine (line : List Char) : Option AsmLine := parseTokens (tokenize [] (stripComment line))

/-- The words of one line of text: none for a line that is blank or only a comment, and no result for a line that is no
host assembly. -/
def assembleLine (line : List Char) : Option (List TxnWord) :=
  match tokenize [] (stripComment line) with
  | [] => some []
  | toks => (parseTokens toks).map AsmLine.words

/-- The words of a program, one transaction or pseudo-instruction per line (R71). -/
def assemble : List (List Char) → Option (List TxnWord)
  | [] => some []
  | line :: rest =>
    match assembleLine line, assemble rest with
    | some ws, some more => some (ws ++ more)
    | _, _ => none

/-- A byte as `0xHH`. -/
def byteText (b : Byte) : List Char :=
  ['0', 'x', hexDigit (b.extractLsb' 4 4), hexDigit (b.extractLsb' 0 4)]

/-- A matrix as `0xMMM`. -/
def matText (m : Mat) : List Char :=
  ['0', 'x', hexDigit (m.extractLsb' 8 4), hexDigit (m.extractLsb' 4 4), hexDigit (m.extractLsb' 0 4)]

/-- A line as the spec writes it (R71, R72). -/
def AsmLine.text : AsmLine → List Char
  | .rd reg => ['r', 'd', ' '] ++ Reg.name reg
  | .wr reg data => ['w', 'r', ' '] ++ Reg.name reg ++ [',', ' '] ++ byteText data
  | .nop => ['n', 'o', 'p']
  | .decode => ['d', 'e', 'c', 'o', 'd', 'e']
  | .encode => ['e', 'n', 'c', 'o', 'd', 'e']
  | .check => ['c', 'h', 'e', 'c', 'k']
  | .cmd code => ['c', 'm', 'd', ' '] ++ byteText code
  | .ldacb t => ['l', 'd', 'a', 'c', 'b', ' '] ++ byteText t.b0 ++ [',', ' '] ++ byteText t.b1 ++ [',', ' '] ++ byteText t.b2
  | .ldmat m => ['l', 'd', 'm', 'a', 't', ' '] ++ matText m
  | .rdacb => ['r', 'd', 'a', 'c', 'b']
  | .rdmat => ['r', 'd', 'm', 'a', 't']
  | .rdst => ['r', 'd', 's', 't']

end Sys2Proof.Machine
end

