-- ==== Sys2Proof/Machine/Bus.lean ====
section
/-! DEFINITION. The bus view of the block: what one transaction word does, read straight off the register map
(spec/20_memory.md R41, 30_encoding.md R60, R61), without decoding it to an instruction. The host adapters and the
many-instance system are written over it. -/

namespace Sys2Proof.Machine

/-- `MemWrite(addr, 1, data)` (R41, R111 to R118): a write of CMD runs the command, and it alone has a side effect. -/
def Block.memWrite (reg : Reg) (data : Byte) (b : Block) : Block :=
  match reg with
  | .acb0 => b.writeAcb0 data
  | .acb1 => b.writeAcb1 data
  | .acb2 => b.writeAcb2 data
  | .rsvd3 => b
  | .matLo => b.writeMatLo data
  | .matHi => b.writeMatHi data
  | .status => b
  | .cmd => b.execute data

/-- One transaction (R60, R61): a read returns a byte to the host, a write changes the block. -/
def State.transact (w : TxnWord) (s : State) : State :=
  if rwField w = 0 then s.respond (s.block.memRead (Reg.ofAddr (addrField w)))
  else s.onBlock (Block.memWrite (Reg.ofAddr (addrField w)) (dataField w))

/-- One host event (R165). -/
def State.apply (e : HostEvent) (s : State) : State :=
  match e with
  | .txn w => s.transact w
  | .reset => s.resetEvent

/-- Host events in issue order (R51, R188). -/
def State.applyAll (es : List HostEvent) (s : State) : State := es.foldl (fun s e => s.apply e) s

/-- A host program: the left-to-right application of its words (R188). -/
def State.issue (ws : List TxnWord) (s : State) : State := ws.foldl (fun s w => s.transact w) s

/-- The machine with a host program on its port, to be run step by step (R188). -/
def State.withProgram (ws : List TxnWord) (s : State) : State := { s with pending := ws.map .txn }

/-- The observation of a run (R188): the block's final state and the bytes its RD words returned, in order. -/
def State.observation (s : State) : Block × List Byte := (s.block, s.reads)

end Sys2Proof.Machine
end

