-- ==== Sys2Proof/Machine/Adapter.lean ====
section
/-! DEFINITION. The host-side adapters (spec/60_exceptions.md R151, R153, R167, R168): software that drives the block by
transactions, with the errors only it can return. -/

namespace Sys2Proof.Machine

/-- The errors an adapter returns to its caller (R151, R153, R167, R168). -/
inductive AdapterError where
  | shapeMismatch
  | redundancyViolation (viol : Viol)
  | inputLength
deriving DecidableEq, Repr

/-- A call of an adapter: what it returns, the transaction words it issued in order, and the machine it leaves. -/
structure AdapterCall (α : Type) where
  result : Result AdapterError α
  issued : List TxnWord
  state  : State
deriving DecidableEq, Repr

/-- A software array is a matrix when it is exactly 3 by 4 with cells in 0 and 1 (R167, R8). -/
def wellShaped (rows : List (List Nat)) : Bool :=
  rows.length == 3 && rows.all (fun row => row.length == 4 && row.all (fun x => x == 0 || x == 1))

/-- One row as a number, `Σ_k row[k] << k` (R167). -/
def rowValue (row : List Nat) : Nat := row.foldr (fun x acc => x + 2 * acc) 0

/-- The matrix of the rows, `Σ_{c,k} rows[c][k] << (4*c + k)` (R167). -/
def packRows (rows : List (List Nat)) : Mat :=
  BitVec.ofNat 12 (rows.foldr (fun row acc => rowValue row + 16 * acc) 0)

/-- The rows of a matrix, `rows[c][k] = MAT[4*c + k]` (R168). -/
def matRows (m : Mat) : List (List Nat) :=
  [0, 1, 2].map fun c => [0, 1, 2, 3].map fun k => (cell m c k).toNat

/-- `encodeMatrix(rows)` (R167): a wrong shape or a cell that is no bit is ShapeMismatch, and then no transaction is
issued. -/
def encodeMatrix (rows : List (List Nat)) (s : State) : AdapterCall Triple :=
  if wellShaped rows then
    let words := asmWords [.ldmat (packRows rows), .encode, .rdacb]
    let s' := s.issue words
    { result := .ok s'.block.triple, issued := words, state := s' }
  else { result := .err .shapeMismatch, issued := [], state := s }

/-- The field in a byte source (R168): 3 bytes, the 4-byte trailer slice, or the whole 16-byte trailer, whose bytes 6
to 8 it is. Another length is none. -/
def fieldOfSource (src : List Byte) : Option Triple :=
  match src.length with
  | 3 => some ⟨src.getD 0 0, src.getD 1 0, src.getD 2 0⟩
  | 4 => some ⟨src.getD 0 0, src.getD 1 0, src.getD 2 0⟩
  | 16 => some ⟨src.getD 6 0, src.getD 7 0, src.getD 8 0⟩
  | _ => none

/-- `decodeBytes(src)` (R168): MAT is read only after STATUS said `VALID = 1` (R166). -/
def decodeBytes (src : List Byte) (s : State) : AdapterCall (List (List Nat)) :=
  match fieldOfSource src with
  | none => { result := .err .inputLength, issued := [], state := s }
  | some t =>
    let words := asmWords [.ldacb t, .decode, .rdst]
    let s' := s.issue words
    if s'.block.status.valid then
      { result := .ok (matRows s'.block.mat), issued := words ++ asmWords [.rdmat], state := s'.issue (asmWords [.rdmat]) }
    else { result := .err (.redundancyViolation s'.block.status.viol), issued := words, state := s' }

end Sys2Proof.Machine
end

