-- ==== Sys2Proof/Machine/System.lean ====
section
/-! DEFINITION. A system of ACCODEC instances (spec/00_scope.md R9, 20_memory.md R55, 60_exceptions.md R162). Each
instance has its own state tuple, its own host port and its own reset; they share nothing. Assumption log 6. -/

namespace Sys2Proof.Machine

/-- `n` instances. -/
structure System (n : Nat) where
  insts : Vector State n
deriving DecidableEq, Repr

/-- The system of the open parameter `N_INST` (R9). -/
abbrev ConfiguredSystem := System Config.nInst

/-- Every instance after its reset. -/
def System.reset (n : Nat) : System n where
  insts := Vector.replicate n State.reset

/-- Instance `i` takes one step; no other instance moves (R55, R162). -/
def System.stepAt {n : Nat} (i : Fin n) (sys : System n) : Host.Outcome (System n) Fault Refusal :=
  match step sys.insts[i] with
  | .next s => .next { insts := sys.insts.set i s }
  | .fault r => .fault r
  | .refused r => .refused r

/-- The host of instance `i` does one thing on its own port: a transaction or that instance's reset (R55, R162). -/
def System.applyAt {n : Nat} (i : Fin n) (e : HostEvent) (sys : System n) : System n :=
  { insts := sys.insts.set i (sys.insts[i].apply e) }

/-- The hosts of all instances, in any interleaving. -/
def System.applyAll {n : Nat} (es : List (Fin n × HostEvent)) (sys : System n) : System n :=
  es.foldl (fun sys e => sys.applyAt e.1 e.2) sys

end Sys2Proof.Machine
end

