-- ==== Sys2Proof/Safety.lean ====
section
/-! DEFINITION. What claims mean by a good state: the STATUS bytes the spec says can occur (spec/10_state.md R32), registers
that agree with each other (R33), and when MAT may be taken for a result (60_exceptions.md R166). -/

namespace Sys2Proof.Machine

/-- The ten STATUS bytes of R32. -/
def reachableStatusBytes : List Byte := [0x00, 0x01, 0x0A, 0x12, 0x1A, 0x22, 0x2A, 0x32, 0x3A, 0x06]

/-- STATUS holds one of the ten bytes of R32. -/
def Status.Legal (st : Status) : Prop := st.toByte ∈ reachableStatusBytes

/-- The registers agree: ACB is the encoding of MAT (R33). -/
def Block.Coherent (b : Block) : Prop := b.triple = encodeMat b.mat

/-- A field that passes all three checks. -/
def Triple.Valid (t : Triple) : Prop := (validate t).1 = true

/-- A field with the bits of `e` flipped: a corruption of it (40_codec_core.md R91, R92). -/
def Triple.flip (t e : Triple) : Triple := ⟨t.b0 ^^^ e.b0, t.b1 ^^^ e.b1, t.b2 ^^^ e.b2⟩

/-- After DECODE the host may treat MAT as a result only when this holds (R166). -/
def Block.ResultTrusted (b : Block) : Prop := b.status.valid = true

end Sys2Proof.Machine

namespace Sys2Proof

/-- A transaction that writes a data register: ACB0 to ACB2, MAT_LO or MAT_HI. -/
def Instr.writesData : Instr → Bool
  | .rd _ => false
  | .wrAcb0 _ => true
  | .wrAcb1 _ => true
  | .wrAcb2 _ => true
  | .wrRsvd3 _ => false
  | .wrMatLo _ => true
  | .wrMatHi _ => true
  | .wrStatus _ => false
  | .nop => false
  | .decode => false
  | .encode => false
  | .check => false
  | .cmdReserved _ => false

/-- A transaction that writes STATUS: every command but NOP (R24, R131). -/
def Instr.writesStatus : Instr → Bool
  | .rd _ => false
  | .wrAcb0 _ => false
  | .wrAcb1 _ => false
  | .wrAcb2 _ => false
  | .wrRsvd3 _ => false
  | .wrMatLo _ => false
  | .wrMatHi _ => false
  | .wrStatus _ => false
  | .nop => false
  | .decode => true
  | .encode => true
  | .check => true
  | .cmdReserved _ => true

end Sys2Proof
end

