-- ==== Sys2Proof/Certificates/Slice0/Obligations.lean ====
section
/-! DEFINITION. The statements for the provers. Rule numbers R<n> are those of spec/. -/

open Sys2Proof Sys2Proof.Machine

-- Encoding ---------------------------------------------------------------------------------------------------------

/-- One word of each row of the opcode table, written out from R60 and R64, decodes to its transaction (R69). -/
def Obligations.SampleWordsDecode : Prop :=
  decodeWord 0b000100000000 = .rd .acb1 ∧ decodeWord 0b011111111111 = .rd .cmd ∧
  decodeWord 0b100010100101 = .wrAcb0 0xA5 ∧ decodeWord 0b100101011010 = .wrAcb1 0x5A ∧
  decodeWord 0b101000111100 = .wrAcb2 0x3C ∧ decodeWord 0b101101101001 = .wrRsvd3 0x69 ∧
  decodeWord 0b110000110101 = .wrMatLo 0x35 ∧ decodeWord 0b110111111001 = .wrMatHi 0xF9 ∧
  decodeWord 0b111011111111 = .wrStatus 0xFF ∧ decodeWord 0b111100000000 = .nop ∧
  decodeWord 0b111100000001 = .decode ∧ decodeWord 0b111100000010 = .encode ∧
  decodeWord 0b111100000011 = .check ∧ decodeWord 0b111101111110 = .cmdReserved 0x7E

/-- Encoding a well-formed transaction and decoding its word gives the transaction back, for every operand value
(R60, R63, R64, R69). -/
def Obligations.EncodedTransactionDecodesBack : Prop := ∀ i : Instr, i.wf = true → decodeWord (encode i) = i

/-- What the decoder reads of a number: it refuses by name whatever is no 12-bit word, and of every word it reads a
well-formed transaction whose own word is the given one, but that a read word loses its ignored DATA (R60, R63, R69). -/
def Obligations.DecodedWordEncodesBack : Prop :=
  (∀ n : Nat, 4096 ≤ n → decodeNat n = .error (.notATransactionWord n)) ∧
  (∀ n : Nat, n < 4096 → ∃ i, decodeNat n = .ok i ∧ i.wf = true ∧
    (2048 ≤ n → (encode i).toNat = n) ∧ (n < 2048 → (encode i).toNat = n / 256 * 256))

/-- `decodeWord` of R69, case by case: every register read with any DATA, every write, the four command codes and the
reserved ones; and every word is of one of these forms. -/
def Obligations.DecoderIsTotalOnAllWords : Prop :=
  (∀ (r : Reg) (d : Byte), decodeWord (packWord 0 r d) = .rd r) ∧
  (∀ d : Byte, decodeWord (packWord 1 .acb0 d) = .wrAcb0 d ∧ decodeWord (packWord 1 .acb1 d) = .wrAcb1 d ∧
    decodeWord (packWord 1 .acb2 d) = .wrAcb2 d ∧ decodeWord (packWord 1 .rsvd3 d) = .wrRsvd3 d ∧
    decodeWord (packWord 1 .matLo d) = .wrMatLo d ∧ decodeWord (packWord 1 .matHi d) = .wrMatHi d ∧
    decodeWord (packWord 1 .status d) = .wrStatus d ∧
    decodeWord (packWord 1 .cmd d) =
      if d = 0x00 then .nop else if d = 0x01 then .decode else if d = 0x02 then .encode
      else if d = 0x03 then .check else .cmdReserved d) ∧
  (∀ w : TxnWord, ∃ (rw : BitVec 1) (r : Reg) (d : Byte), w = packWord rw r d) ∧
  (Reg.addr .acb0 = 0 ∧ Reg.addr .acb1 = 1 ∧ Reg.addr .acb2 = 2 ∧ Reg.addr .rsvd3 = 3 ∧
    Reg.addr .matLo = 4 ∧ Reg.addr .matHi = 5 ∧ Reg.addr .status = 6 ∧ Reg.addr .cmd = 7)

/-- Searching the opcode table from the top finds the row of the instruction the decoder reads (R69: the exact command
rows before the CMD_RESERVED row), for every number the decoder accepts and for the word of every well-formed
instruction. -/
def Obligations.DecoderFollowsOpcodeTable : Prop :=
  (∀ (n : Nat) (i : Instr), decodeNat n = .ok i →
    (opcodeTable.find? (fun r => r.hits (BitVec.ofNat 12 n))).map (fun r => r.name) = some i.row) ∧
  (∀ i : Instr, i.wf = true →
    (opcodeTable.find? (fun r => r.hits (encode i))).map (fun r => r.name) = some i.row)

-- The step and the run ---------------------------------------------------------------------------------------------

/-- A step runs the transaction the next word decodes to, with the word taken off the port; a reset event gives the
reset state and leaves what the host does next (log 4); with no event the state stays (R164, log 1). -/
def Obligations.StepRunsDecodedTransaction : Prop :=
  (∀ (s : State) (w : TxnWord) (rest : List HostEvent), s.pending = .txn w :: rest →
    step s = exec (decodeWord w) { s with pending := rest }) ∧
  (∀ (s : State) (rest : List HostEvent), s.pending = .reset :: rest →
    step s = .next { State.reset with pending := rest }) ∧
  (∀ s : State, s.pending = [] → step s = .next s)

/-- R150: every transaction from every state has exactly one successor state, and so has every step; a transaction never
touches what the host does next, and a step takes one event off it (the model's port, log 1). -/
def Obligations.EveryTransactionHasOneSuccessor : Prop :=
  (∀ (i : Instr) (s : State), ∃ t, exec i s = .next t ∧ t.pending = s.pending) ∧
  (∀ s : State, ∃ t, step s = .next t ∧ t.pending = s.pending.tail)

/-- Decoding a word and executing the instruction does what the register map says of the word (R41, R60, R61, R110 to
R118), for every word and state. -/
def Obligations.ExecutionMatchesRegisterMap : Prop :=
  ∀ (w : TxnWord) (s : State), exec (decodeWord w) s = .next (s.transact w)

/-- A run is the left-to-right application of the host's events, whatever stands behind them on the port. For events that
are words this is R188. That a reset event among them does not end the run, and that the events behind it stay, is the
model's choice (log 4), as is the port itself (log 1). -/
def Obligations.RunAppliesEventsLeftToRight : Prop :=
  ∀ (es rest : List HostEvent) (s : State),
    Sys2Proof.core.run es.length { s with pending := es ++ rest } = .next (({ s with pending := rest } : State).applyAll es)

/-- R188: a program of `ws.length` words, run from reset, ends exactly when its last word has been applied, at no length
earlier with a stop; its observation is that of the words applied in order. -/
def Obligations.ProgramRunFromResetEnds : Prop :=
  ∀ ws : List TxnWord,
    (∀ n, ∃ t, Sys2Proof.core.run n (State.reset.withProgram ws) = .next t ∧ t.pending.length = ws.length - n) ∧
    (∃ t, Sys2Proof.core.run ws.length (State.reset.withProgram ws) = .next t ∧ t.pending = [] ∧
      t.observation = (State.reset.issue ws).observation)

-- Results of the transactions --------------------------------------------------------------------------------------

/-- R110: the words of RD, with any DATA, and what it returns at each of the eight addresses; the byte joins those read before and nothing else changes. -/
def Obligations.ReadReturnsRegisterByte : Prop :=
  (∀ (r : Reg) (d : Byte), decodeWord ((0 : BitVec 1) ++ r.addr ++ d) = .rd r) ∧
  ∀ s : State,
    exec (.rd .acb0) s = .next { s with reads := s.reads ++ [s.block.acb0] } ∧
    exec (.rd .acb1) s = .next { s with reads := s.reads ++ [s.block.acb1] } ∧
    exec (.rd .acb2) s = .next { s with reads := s.reads ++ [s.block.acb2] } ∧
    exec (.rd .rsvd3) s = .next { s with reads := s.reads ++ [0x00] } ∧
    exec (.rd .matLo) s = .next { s with reads := s.reads ++ [s.block.mat.extractLsb' 0 8] } ∧
    exec (.rd .matHi) s = .next { s with reads := s.reads ++ [(0 : Nibble) ++ s.block.mat.extractLsb' 8 4] } ∧
    exec (.rd .status) s = .next { s with reads := s.reads ++
      [(0 : BitVec 2) ++ s.block.status.viol ++ s.block.status.err.code ++ BitVec.ofBool s.block.status.valid] } ∧
    exec (.rd .cmd) s = .next { s with reads := s.reads ++ [0x00] }

/-- R111, R112, R113: the words of a write of ACB0, ACB1 or ACB2; it stores the byte, unchecked, and changes nothing else: STATUS, MAT and
the other two access bytes stay. -/
def Obligations.AccessByteWritesStoreTheByte : Prop :=
  ∀ (d : Byte) (s : State),
    decodeWord ((0b1000 : Nibble) ++ d) = .wrAcb0 d ∧ decodeWord ((0b1001 : Nibble) ++ d) = .wrAcb1 d ∧
    decodeWord ((0b1010 : Nibble) ++ d) = .wrAcb2 d ∧
    exec (.wrAcb0 d) s = .next { s with block := { s.block with acb0 := d } } ∧
    exec (.wrAcb1 d) s = .next { s with block := { s.block with acb1 := d } } ∧
    exec (.wrAcb2 d) s = .next { s with block := { s.block with acb2 := d } }

/-- R114, R117, R131: the words of a write of address 3, a write of STATUS, and NOP; they change nothing at all. -/
def Obligations.IgnoredWritesAndNopChangeNothing : Prop :=
  ∀ (d : Byte) (s : State),
    decodeWord ((0b1011 : Nibble) ++ d) = .wrRsvd3 d ∧ decodeWord ((0b1110 : Nibble) ++ d) = .wrStatus d ∧
    decodeWord 0xF00 = .nop ∧
    exec (.wrRsvd3 d) s = .next s ∧ exec (.wrStatus d) s = .next s ∧ exec .nop s = .next s

/-- R115, R116: a write of MAT_LO stores the C1 and C2 planes and keeps C3; a write of MAT_HI stores C3 from the low
nibble, discards the high nibble and keeps C1 and C2. Only MAT changes. -/
def Obligations.MatrixWritesStorePlanes : Prop :=
  ∀ (d : Byte) (s : State),
    decodeWord ((0b1100 : Nibble) ++ d) = .wrMatLo d ∧ decodeWord ((0b1101 : Nibble) ++ d) = .wrMatHi d ∧
    (∃ m : Mat, exec (.wrMatLo d) s = .next { s with block := { s.block with mat := m } } ∧
      ∀ k < 4, cell m 0 k = d.getLsbD k ∧ cell m 1 k = d.getLsbD (4 + k) ∧ cell m 2 k = cell s.block.mat 2 k) ∧
    (∃ m : Mat, exec (.wrMatHi d) s = .next { s with block := { s.block with mat := m } } ∧
      ∀ k < 4, cell m 0 k = cell s.block.mat 0 k ∧ cell m 1 k = cell s.block.mat 1 k ∧ cell m 2 k = d.getLsbD k)

/-- R132, R152: DECODE, the word `0xF01`. When the three checks hold, MAT takes the three true copies and STATUS records success. When one
fails, STATUS records RedundancyViolation with exactly the failing checks and nothing else changes: MAT keeps its value. -/
def Obligations.DecodeCommandExtractsOrRecordsViolation : Prop :=
  decodeWord 0xF01 = .decode ∧ ∀ s : State,
    let c1 := hiNibble s.block.acb1 = ~~~loNibble s.block.acb0
    let c2 := loNibble s.block.acb2 = ~~~hiNibble s.block.acb0
    let c3 := hiNibble s.block.acb2 = ~~~loNibble s.block.acb1
    (c1 ∧ c2 ∧ c3 → ∃ m : Mat,
      exec .decode s = .next { s with block := { s.block with mat := m, status := ⟨true, .none, 0⟩ } } ∧
      ∀ k < 4, cell m 0 k = s.block.acb1.getLsbD (4 + k) ∧ cell m 1 k = s.block.acb2.getLsbD k ∧
        cell m 2 k = s.block.acb2.getLsbD (4 + k)) ∧
    (¬(c1 ∧ c2 ∧ c3) → ∃ v : Viol,
      exec .decode s = .next { s with block := { s.block with status := ⟨false, .redundancyViolation, v⟩ } } ∧
      (v.getLsbD 0 = true ↔ ¬c1) ∧ (v.getLsbD 1 = true ↔ ¬c2) ∧ (v.getLsbD 2 = true ↔ ¬c3))

/-- R133, R86: ENCODE, the word `0xF02`, overwrites all 24 ACB bits with the planes and their complements and records success; MAT stays,
and a CHECK straight after changes nothing, so the new field is valid. -/
def Obligations.EncodeCommandPacksMatrix : Prop :=
  decodeWord 0xF02 = .encode ∧ ∀ s : State, ∃ t : State, exec .encode s = .next t ∧
    t = { s with block := ⟨t.block.acb0, t.block.acb1, t.block.acb2, s.block.mat, ⟨true, .none, 0⟩⟩ } ∧
    (∀ k < 4,
      t.block.acb0.getLsbD k = !cell s.block.mat 0 k ∧ t.block.acb0.getLsbD (4 + k) = !cell s.block.mat 1 k ∧
      t.block.acb1.getLsbD k = !cell s.block.mat 2 k ∧ t.block.acb1.getLsbD (4 + k) = cell s.block.mat 0 k ∧
      t.block.acb2.getLsbD k = cell s.block.mat 1 k ∧ t.block.acb2.getLsbD (4 + k) = cell s.block.mat 2 k) ∧
    exec .check t = .next t

/-- R134: CHECK, the word `0xF03`, writes STATUS only: the success record when the three checks hold, else RedundancyViolation with exactly
the failing checks; and it leaves the STATUS that DECODE would leave. -/
def Obligations.CheckCommandReportsValidity : Prop :=
  decodeWord 0xF03 = .check ∧ ∀ s : State,
    let c1 := hiNibble s.block.acb1 = ~~~loNibble s.block.acb0
    let c2 := loNibble s.block.acb2 = ~~~hiNibble s.block.acb0
    let c3 := hiNibble s.block.acb2 = ~~~loNibble s.block.acb1
    (c1 ∧ c2 ∧ c3 → exec .check s = .next { s with block := { s.block with status := ⟨true, .none, 0⟩ } }) ∧
    (¬(c1 ∧ c2 ∧ c3) → ∃ v : Viol,
      exec .check s = .next { s with block := { s.block with status := ⟨false, .redundancyViolation, v⟩ } } ∧
      (v.getLsbD 0 = true ↔ ¬c1) ∧ (v.getLsbD 1 = true ↔ ¬c2) ∧ (v.getLsbD 2 = true ↔ ¬c3)) ∧
    (∃ t u, exec .check s = .next t ∧ exec .decode s = .next u ∧ t.block.status = u.block.status)

/-- R135, R154: every reserved code, `0x04` to `0xFF`, is a transaction that records IllegalCommand in STATUS, whatever
ACB holds, and changes nothing else. -/
def Obligations.ReservedCodeRecordsIllegalCommand : Prop :=
  ∀ (d : Byte) (s : State), 4 ≤ d.toNat →
    decodeWord (packWord 1 .cmd d) = .cmdReserved d ∧
    exec (.cmdReserved d) s = .next { s with block := { s.block with status := ⟨false, .illegalCommand, 0⟩ } }

/-- R118, R130: a write of CMD runs the command of its code inside the transaction, and nothing is stored at address 7.
The dispatch is total over all 256 codes. -/
def Obligations.CommandWriteExecutesItsCode : Prop :=
  (∀ (d : Byte) (s : State), ∃ t, exec (decodeWord (packWord 1 .cmd d)) s = .next t ∧
    t = s.onBlock (Block.execute d) ∧ t.block.memRead .cmd = 0x00) ∧
  (∀ b : Block, b.execute 0x00 = b ∧ b.execute 0x01 = b.runDecode ∧ b.execute 0x02 = b.runEncode ∧
    b.execute 0x03 = b.runCheck ∧ ∀ d : Byte, 4 ≤ d.toNat → b.execute d = b.runReserved)

-- Frames and whole-machine rules -----------------------------------------------------------------------------------

/-- R43, R50: a write of a register other than CMD leaves every other location reading as before, and leaves STATUS, the
bytes read so far and the host's next events alone. -/
def Obligations.DataWriteLeavesOtherLocations : Prop :=
  ∀ (r : Reg) (d : Byte) (s : State), r ≠ .cmd → ∃ t, exec (decodeWord (packWord 1 r d)) s = .next t ∧
    (∀ r', r' ≠ r → t.block.memRead r' = s.block.memRead r') ∧
    t.block.status = s.block.status ∧ t.reads = s.reads ∧ t.pending = s.pending

/-- R184, R50: a location read straight after it is written returns the new value: the byte for ACB0 to ACB2 and MAT_LO,
its low nibble for MAT_HI, 0 for the reserved address and CMD, and STATUS as it was. -/
def Obligations.ReadAfterWriteReturnsNewValue : Prop :=
  ∀ (r : Reg) (d : Byte) (s : State), ∃ t, exec (decodeWord (packWord 1 r d)) s = .next t ∧
    exec (.rd r) t = .next { t with reads := t.reads ++
      [match r with
        | .acb0 | .acb1 | .acb2 | .matLo => d
        | .matHi => d &&& 0x0F
        | .rsvd3 | .cmd => 0x00
        | .status => s.block.memRead .status] }

/-- R136: the frames of the commands. DECODE leaves ACB alone, ENCODE leaves MAT, CHECK and the reserved codes leave
both; none of them returns a byte or touches the host's next events. -/
def Obligations.CommandsLeaveTheirSources : Prop :=
  ∀ (i : Instr) (s : State), i.writesStatus = true → ∃ t, exec i s = .next t ∧
    (i ≠ .encode → t.block.triple = s.block.triple) ∧ (i ≠ .decode → t.block.mat = s.block.mat) ∧
    t.reads = s.reads ∧ t.pending = s.pending

/-- R24, R43: "Only commands and reset write STATUS." If a step changes STATUS, its event was a command other than NOP,
or the reset (events of the model's port, logs 1 and 4). -/
def Obligations.OnlyCommandsAndResetWriteStatus : Prop :=
  ∀ s : State, ∃ t, step s = .next t ∧
    (t.block.status ≠ s.block.status →
      (∃ w rest, s.pending = .txn w :: rest ∧ rwField w = 1 ∧ addrField w = 7 ∧ dataField w ≠ 0) ∨
      (∃ rest, s.pending = .reset :: rest))

/-- R21, R22: who writes the data registers. If a step changes MAT, its event was a DECODE of a valid field, a write of
MAT_LO or MAT_HI, or the reset; if it changes an access byte, an ENCODE, a write of ACB0 to ACB2, or the reset
(events of the model's port, logs 1 and 4). -/
def Obligations.OnlyNamedWritersChangeDataRegisters : Prop :=
  ∀ s : State, ∃ t, step s = .next t ∧
    (t.block.mat ≠ s.block.mat →
      (∃ w rest, s.pending = .txn w :: rest ∧
        ((decodeWord w = .decode ∧ s.block.triple.Valid) ∨ ∃ d, decodeWord w = .wrMatLo d ∨ decodeWord w = .wrMatHi d)) ∨
      (∃ rest, s.pending = .reset :: rest)) ∧
    (t.block.triple ≠ s.block.triple →
      (∃ w rest, s.pending = .txn w :: rest ∧
        (decodeWord w = .encode ∨ ∃ d, decodeWord w = .wrAcb0 d ∨ decodeWord w = .wrAcb1 d ∨ decodeWord w = .wrAcb2 d)) ∨
      (∃ rest, s.pending = .reset :: rest))

/-- R163, R30: the whole state is observable through RD: two blocks that read the same at every address are the same. -/
def Obligations.ReadsDetermineTheBlock : Prop :=
  ∀ b b' : Block, (∀ r : Reg, b.memRead r = b'.memRead r) → b = b'

/-- R44: repeating a transaction at once leaves the block as performing it once. -/
def Obligations.TransactionIsIdempotent : Prop :=
  ∀ (i : Instr) (s : State), ∃ t u, exec i s = .next t ∧ exec i t = .next u ∧ u.block = t.block

/-- R183: the order of the writes within a load does not matter, and the load leaves its operand in the registers. -/
def Obligations.LoadOrderDoesNotMatter : Prop :=
  (∀ (f : Triple) (ws : List TxnWord) (s : State), ws.Perm (AsmLine.ldacb f).words →
    (s.issue ws).block = s.block.setTriple f) ∧
  (∀ (m : Mat) (ws : List TxnWord) (s : State), ws.Perm (AsmLine.ldmat m).words →
    (s.issue ws).block = { s.block with mat := m })

-- STATUS -----------------------------------------------------------------------------------------------------------

/-- R24, R68: the STATUS byte bit by bit: VALID at bit 0, ERR at bits 2:1, VIOL at bits 5:3, and 0 at bits 7:6; and the
number of each error (R25). -/
def Obligations.StatusByteLayout : Prop :=
  ∀ st : Status, st.toByte.getLsbD 0 = st.valid ∧
    (∀ j < 2, st.toByte.getLsbD (1 + j) = st.err.code.getLsbD j) ∧
    (∀ j < 3, st.toByte.getLsbD (3 + j) = st.viol.getLsbD j) ∧
    st.toByte.getLsbD 6 = false ∧ st.toByte.getLsbD 7 = false ∧
    st.err.code = (match st.err with
      | .none => 0
      | .redundancyViolation => 1
      | .shapeMismatch => 2
      | .illegalCommand => 3)

/-- R32: a step from a state whose STATUS is one of the ten bytes leads to such a state. -/
def Obligations.StatusStaysLegal : Prop :=
  ∀ s t : State, s.block.status.Legal → step s = .next t → t.block.status.Legal

/-- R32: STATUS is one of the ten bytes after reset. -/
def Obligations.StatusLegalAtReset : Prop := State.reset.block.status.Legal

/-- R32, R26: what a legal STATUS is: `VALID = 1` implies `ERR = 0` and `VIOL = 0`, `ERR = 1` holds exactly when
`VIOL ≠ 0`, and `ERR = 2` never occurs. -/
def Obligations.LegalStatusMeansTheStatedRelations : Prop :=
  ∀ st : Status, st.Legal ↔
    (st.valid = true → st.err = .none ∧ st.viol = 0) ∧ (st.err = .redundancyViolation ↔ st.viol ≠ 0) ∧
    st.err ≠ .shapeMismatch

/-- R158: a record stays in STATUS through any run of reads, data writes, ignored writes and NOPs (run from the model's
host port, log 1). -/
def Obligations.RecordPersistsUntilNextCommand : Prop :=
  ∀ (ws : List TxnWord) (s : State), (∀ w ∈ ws, (decodeWord w).writesStatus = false) →
    ∃ t, Sys2Proof.core.run ws.length (s.withProgram ws) = .next t ∧ t.block.status = s.block.status

/-- R33: after an ENCODE, after a DECODE that set `VALID = 1`, and in the reset state, the registers agree and the field
is valid, and they go on agreeing through any words that write no data register. -/
def Obligations.RegistersStayCoherent : Prop :=
  (∀ (w : TxnWord) (ws : List TxnWord) (s : State),
    decodeWord w = .encode ∨ (decodeWord w = .decode ∧ (s.transact w).block.ResultTrusted) →
    (∀ v ∈ ws, (decodeWord v).writesData = false) →
    (s.issue (w :: ws)).block.Coherent ∧ (s.issue (w :: ws)).block.triple.Valid) ∧
  (∀ ws : List TxnWord, (∀ v ∈ ws, (decodeWord v).writesData = false) →
    (State.reset.issue ws).block.Coherent ∧ (State.reset.issue ws).block.triple.Valid)

-- Codec core -------------------------------------------------------------------------------------------------------

/-- R80, R81, R82: each check compares the true copy of its plane with the complement of the inverted copy, bit by bit. -/
def Obligations.ChecksCompareCopiesBitByBit : Prop :=
  ∀ b0 b1 b2 : Byte,
    (checkC1 b0 b1 = true ↔ ∀ k < 4, b1.getLsbD (4 + k) = !b0.getLsbD k) ∧
    (checkC2 b0 b2 = true ↔ ∀ k < 4, b2.getLsbD k = !b0.getLsbD (4 + k)) ∧
    (checkC3 b1 b2 = true ↔ ∀ k < 4, b2.getLsbD (4 + k) = !b1.getLsbD k)

/-- R83: `Validate` reports every failing check, C1 in bit 0, C2 in bit 1 and C3 in bit 2, and is valid when none fails. -/
def Obligations.ValidateReportsEveryCheck : Prop :=
  ∀ f : Triple,
    (validate f).2.getLsbD 0 = (!checkC1 f.b0 f.b1) ∧ (validate f).2.getLsbD 1 = (!checkC2 f.b0 f.b2) ∧
    (validate f).2.getLsbD 2 = (!checkC3 f.b1 f.b2) ∧
    ((validate f).1 = true ↔ checkC1 f.b0 f.b1 = true ∧ checkC2 f.b0 f.b2 = true ∧ checkC3 f.b1 f.b2 = true)

/-- R84: the extraction by the source's formulas, for every plane and block; byte 0 is not read. -/
def Obligations.ExtractionFollowsSourceFormulas : Prop :=
  ∀ f : Triple,
    (∀ k < 4, (BitVec.ofBool (cell (extract f) 0 k)).setWidth 8 = (f.b1 >>> (4 + k)) &&& 1 ∧
      (BitVec.ofBool (cell (extract f) 1 k)).setWidth 8 = (f.b2 >>> k) &&& 1 ∧
      (BitVec.ofBool (cell (extract f) 2 k)).setWidth 8 = (f.b2 >>> (4 + k)) &&& 1) ∧
    ∀ b0 : Byte, extract { f with b0 := b0 } = extract f

/-- R85: `Decode` returns the extracted matrix when all three checks hold, and otherwise the one error
RedundancyViolation with the failing checks, which are then not none. -/
def Obligations.DecodeFailsExactlyOnViolation : Prop :=
  ∀ f : Triple,
    (f.Valid → decodeTriple f = .ok (extract f)) ∧
    (¬f.Valid → decodeTriple f = .err (.redundancyViolation (validate f).2) ∧ (validate f).2 ≠ 0)

/-- R66, R86: the layout of the encoded field, bit by bit. -/
def Obligations.EncodingFollowsFieldLayout : Prop :=
  ∀ (m : Mat), ∀ k < 4,
    (encodeMat m).b0.getLsbD k = !cell m 0 k ∧ (encodeMat m).b0.getLsbD (4 + k) = !cell m 1 k ∧
    (encodeMat m).b1.getLsbD k = !cell m 2 k ∧ (encodeMat m).b1.getLsbD (4 + k) = cell m 0 k ∧
    (encodeMat m).b2.getLsbD k = cell m 1 k ∧ (encodeMat m).b2.getLsbD (4 + k) = cell m 2 k

/-- R87, R89: the round trip from the matrix side, and that every encoded field is valid; and in the machine, a DECODE
straight after an ENCODE finds the matrix that was encoded and changes nothing. -/
def Obligations.DecodeOfEncodeIsTheMatrix : Prop :=
  (∀ m : Mat, decodeTriple (encodeMat m) = .ok m ∧ validate (encodeMat m) = (true, 0)) ∧
  (∀ s : State, ∃ t, exec .encode s = .next t ∧ exec .decode t = .next t ∧ t.block.mat = s.block.mat)

/-- R88: the round trip from the byte side, for every valid field. -/
def Obligations.EncodeOfDecodeIsTheField : Prop :=
  ∀ f : Triple, f.Valid → encodeMat (extract f) = f ∧ ∃ m, decodeTriple f = .ok m ∧ encodeMat m = f

/-- R90: exactly 4096 of the 2^24 fields are valid and the others are violations; on valid fields `Decode` is a bijection
onto the matrices. -/
def Obligations.ValidFieldsNumber4096 : Prop :=
  {f : Triple | f.Valid}.ncard = 4096 ∧ {f : Triple | ∃ v, decodeTriple f = .err v}.ncard = 16773120 ∧
  (∀ m : Mat, ∃! f : Triple, decodeTriple f = .ok m)

/-- R91: flipping one bit of a valid field fails exactly one check, the one that bit belongs to. -/
def Obligations.SingleBitFlipFailsOneCheck : Prop :=
  ∀ f : Triple, f.Valid → ∀ k < 4,
    (validate { f with b0 := f.b0 ^^^ (1 <<< k) }).2 = 0b001 ∧
    (validate { f with b1 := f.b1 ^^^ (1 <<< (4 + k)) }).2 = 0b001 ∧
    (validate { f with b0 := f.b0 ^^^ (1 <<< (4 + k)) }).2 = 0b010 ∧
    (validate { f with b2 := f.b2 ^^^ (1 <<< k) }).2 = 0b010 ∧
    (validate { f with b1 := f.b1 ^^^ (1 <<< k) }).2 = 0b100 ∧
    (validate { f with b2 := f.b2 ^^^ (1 <<< (4 + k)) }).2 = 0b100

/-- R92: a corruption `e` of a valid field goes undetected exactly when it flips both copies of a cell or neither, for
every plane and block; and then the field decodes to the matrix with exactly those cells inverted. -/
def Obligations.UndetectedCorruptionsFlipBothCopies : Prop :=
  ∀ e f : Triple, f.Valid →
    ((f.flip e).Valid ↔ ∀ k < 4, e.b0.getLsbD k = e.b1.getLsbD (4 + k) ∧
      e.b0.getLsbD (4 + k) = e.b2.getLsbD k ∧ e.b1.getLsbD k = e.b2.getLsbD (4 + k)) ∧
    ((f.flip e).Valid → ∃ m, decodeTriple (f.flip e) = .ok m ∧ ∀ k < 4,
      cell m 0 k = (cell (extract f) 0 k ^^ e.b1.getLsbD (4 + k)) ∧
      cell m 1 k = (cell (extract f) 1 k ^^ e.b2.getLsbD k) ∧
      cell m 2 k = (cell (extract f) 2 k ^^ e.b2.getLsbD (4 + k)))

/-- R67: after a DECODE that set `VALID = 1`, MAT_LO reads as the complement of byte 0 and MAT_HI as the high nibble of
byte 2. -/
def Obligations.MatrixReadsFollowValidField : Prop :=
  ∀ s : State, s.block.triple.Valid → ∃ t, exec .decode s = .next t ∧
    t.block.memRead .matLo = ~~~s.block.acb0 ∧ t.block.memRead .matHi = s.block.acb2 >>> 4

-- Reset ------------------------------------------------------------------------------------------------------------

/-- R180, R31: a reset event between any two transactions, from any state, gives every element its reset value in one
step. That the host's next events stay on the port is the model's choice (log 4). -/
def Obligations.ResetEventGivesResetValues : Prop :=
  ∀ (s : State) (rest : List HostEvent), s.pending = .reset :: rest → ∃ t, step s = .next t ∧
    t.block = ⟨0xFF, 0x0F, 0x00, 0x000, ⟨false, .none, 0⟩⟩ ∧ t.block.memRead .status = 0x00 ∧
    t.block.memRead .cmd = 0x00 ∧ t.pending = rest

/-- R31: whatever the machine was doing, a DECODE straight after the reset event succeeds and leaves MAT unchanged.
That the transaction behind the reset event still runs, and that the events behind it stay on the port, is the model's
choice (logs 1 and 4). -/
def Obligations.DecodeAfterResetSucceeds : Prop :=
  ∀ (s : State) (rest : List HostEvent), s.pending = .reset :: .txn 0xF01 :: rest →
    ∃ t u, step s = .next t ∧ step t = .next u ∧ u.block.status.toByte = 0x01 ∧ u.block.mat = t.block.mat ∧
      u.block.triple = t.block.triple ∧ u.pending = rest

-- Host adapters ----------------------------------------------------------------------------------------------------

/-- R167: `encodeMatrix`. A software array that is not exactly 3 by 4 cells in 0 and 1 is ShapeMismatch; no transaction is
issued and the machine is as it was. On a 3 by 4 array of bits the adapter writes the matrix of its cells, runs ENCODE,
reads the three bytes back, and returns them; the bytes are the encoding of the matrix, whatever the machine held.
Cells are natural numbers (log 8). -/
def Obligations.EncodeMatrixFollowsTheCodec : Prop :=
  ∀ (rows : List (List Nat)) (s : State),
    (¬(rows.length = 3 ∧ ∀ row ∈ rows, row.length = 4 ∧ ∀ x ∈ row, x = 0 ∨ x = 1) →
      encodeMatrix rows s = { result := .err .shapeMismatch, issued := [], state := s }) ∧
    (rows.length = 3 → (∀ row ∈ rows, row.length = 4 ∧ ∀ x ∈ row, x = 0 ∨ x = 1) →
      ∃ m : Mat, (∀ c < 3, ∀ k < 4, (rows.getD c []).getD k 0 = (cell m c k).toNat) ∧
        (encodeMatrix rows s).result = .ok (encodeMat m) ∧
        (encodeMatrix rows s).issued =
          asmWords [.wr .matLo (m.extractLsb' 0 8), .wr .matHi ((m.extractLsb' 8 4).setWidth 8), .wr .cmd 0x02,
            .rd .acb0, .rd .acb1, .rd .acb2] ∧
        (encodeMatrix rows s).state.reads = s.reads ++ [(encodeMat m).b0, (encodeMat m).b1, (encodeMat m).b2] ∧
        (encodeMatrix rows s).state.block.mat = m)

/-- R168: `decodeBytes`. A source of another length is InputLength with no transaction issued; 3 bytes, a 4-byte slice
and a 16-byte trailer give the field at their offset; a valid field gives the cells of its matrix, an invalid one the
violations, and MAT is then neither read nor changed. -/
def Obligations.DecodeBytesFollowsTheCodec : Prop :=
  (∀ (src : List Byte) (s : State), src.length ≠ 3 → src.length ≠ 4 → src.length ≠ 16 →
    decodeBytes src s = { result := .err .inputLength, issued := [], state := s }) ∧
  (∀ (src : List Byte) (s : State) (f : Triple),
    ((src.length = 3 ∨ src.length = 4) ∧ f = ⟨src.getD 0 0, src.getD 1 0, src.getD 2 0⟩) ∨
      (src.length = 16 ∧ f = ⟨src.getD 6 0, src.getD 7 0, src.getD 8 0⟩) →
    (∀ m : Mat, decodeTriple f = .ok m →
      (∃ rows, (decodeBytes src s).result = .ok rows ∧ rows.length = 3 ∧
        ∀ c < 3, (rows.getD c []).length = 4 ∧ ∀ k < 4, (rows.getD c []).getD k 0 = (cell m c k).toNat) ∧
      (decodeBytes src s).issued = asmWords [.ldacb f, .decode, .rdst, .rdmat] ∧
      (decodeBytes src s).state.block = ⟨f.b0, f.b1, f.b2, m, ⟨true, .none, 0⟩⟩) ∧
    (∀ v : Viol, decodeTriple f = .err (.redundancyViolation v) →
      (decodeBytes src s).result = .err (.redundancyViolation v) ∧
      (decodeBytes src s).issued = asmWords [.ldacb f, .decode, .rdst] ∧
      (decodeBytes src s).state.block = ⟨f.b0, f.b1, f.b2, s.block.mat, ⟨false, .redundancyViolation, v⟩⟩))

/-- R87, R167, R168: the source's `decode(encode(m)) == m` through the machine: what `encodeMatrix` returns,
`decodeBytes` turns back into the same rows, on any machine. -/
def Obligations.AdaptersRoundTrip : Prop :=
  ∀ (rows : List (List Nat)) (s s' : State),
    rows.length = 3 → (∀ row ∈ rows, row.length = 4 ∧ ∀ x ∈ row, x = 0 ∨ x = 1) →
    ∃ f : Triple, (encodeMatrix rows s).result = .ok f ∧ (decodeBytes [f.b0, f.b1, f.b2] s').result = .ok rows

-- Instances --------------------------------------------------------------------------------------------------------

/-- R55, R162: in any interleaving of the hosts of all instances, an instance ends as its own events alone leave it. -/
def Obligations.InstancesNeverInterfere : Prop :=
  ∀ (n : Nat) (es : List (Fin n × HostEvent)) (sys : System n) (j : Fin n),
    (sys.applyAll es).insts[j] = sys.insts[j].applyAll ((es.filter (fun e => e.1 = j)).map (fun e => e.2))

/-- R55, R162: a step of one instance is that instance's step, and no other instance moves. -/
def Obligations.InstanceStepIsLocal : Prop :=
  ∀ (n : Nat) (i : Fin n) (sys : System n), ∃ t sys', step sys.insts[i] = .next t ∧ sys.stepAt i = .next sys' ∧
    sys'.insts[i] = t ∧ ∀ j : Fin n, j ≠ i → sys'.insts[j] = sys.insts[j]

-- Assembler --------------------------------------------------------------------------------------------------------

/-- R71, R72: the words of every line of host assembly; and every word of a line is the word of the transaction it
decodes to, so the assembler writes `DATA = 0x00` in every RD it produces (R63). -/
def Obligations.AssemblerExpansions : Prop :=
  (∀ r : Reg, (AsmLine.rd r).words = [(0 : BitVec 1) ++ r.addr ++ (0x00 : Byte)]) ∧
  (∀ (r : Reg) (d : Byte), (AsmLine.wr r d).words = [(1 : BitVec 1) ++ r.addr ++ d]) ∧
  AsmLine.nop.words = [0xF00] ∧ AsmLine.decode.words = [0xF01] ∧ AsmLine.encode.words = [0xF02] ∧
  AsmLine.check.words = [0xF03] ∧ (∀ d : Byte, (AsmLine.cmd d).words = [(0xF : Nibble) ++ d]) ∧
  (∀ f : Triple, (AsmLine.ldacb f).words = [(0x8 : Nibble) ++ f.b0, (0x9 : Nibble) ++ f.b1, (0xA : Nibble) ++ f.b2]) ∧
  (∀ m : Mat, (AsmLine.ldmat m).words =
    [(0xC : Nibble) ++ m.extractLsb' 0 8, (0xD0 : Byte) ++ m.extractLsb' 8 4]) ∧
  AsmLine.rdacb.words = [0x000, 0x100, 0x200] ∧ AsmLine.rdmat.words = [0x400, 0x500] ∧ AsmLine.rdst.words = [0x600] ∧
  (∀ (l : AsmLine), ∀ w ∈ l.words, encode (decodeWord w) = w)

/-- R71, R72: the text of every line assembles to the words of that line, alone and with any comment behind it; the
mnemonic may stand in any mixture of cases; a register may be given by its decimal address 0 to 7 in place of its name; and
a program is assembled line by line. How blanks and commas make tokens, and the upper-case digits of the text, are the
model's choice (log 7). -/
def Obligations.AssemblerReadsEveryLine : Prop :=
  (∀ l : AsmLine,
    parseLine l.text = some l ∧ assembleLine l.text = some l.words ∧
    (∀ comment : List Char, parseLine (l.text ++ ';' :: comment) = some l ∧
      assembleLine (l.text ++ ';' :: comment) = some l.words) ∧
    ∃ op args, tokenize [] l.text = op :: args ∧ ∀ op', foldCase op' = op → parseTokens (op' :: args) = some l) ∧
  (∀ p ∈ [('0', Reg.acb0), ('1', .acb1), ('2', .acb2), ('3', .rsvd3), ('4', .matLo), ('5', .matHi), ('6', .status),
      ('7', .cmd)],
    assembleLine ['r', 'd', ' ', p.1] = some (AsmLine.rd p.2).words ∧
    ∀ d : Byte, assembleLine (['w', 'r', ' ', p.1, ',', ' '] ++ byteText d) = some (AsmLine.wr p.2 d).words) ∧
  (∀ ls : List AsmLine, assemble (ls.map AsmLine.text) = some (asmWords ls))
end

