-- ==== Sys2Proof/Laws/Codec.lean ====
section
/-! SUPPORT. The slices and concatenations of the codec core, bit by bit and against each other. -/

namespace Sys2Proof.Machine

theorem getLsbD_hiNibble (b : Byte) (i : Nat) : (hiNibble b).getLsbD i = (decide (i < 4) && b.getLsbD (4 + i)) := by
  simp [hiNibble]

theorem getLsbD_loNibble (b : Byte) (i : Nat) : (loNibble b).getLsbD i = (decide (i < 4) && b.getLsbD i) := by
  simp [loNibble]

theorem getLsbD_joinNibbles (h l : Nibble) (i : Nat) :
    (joinNibbles h l).getLsbD i = if i < 4 then l.getLsbD i else h.getLsbD (i - 4) :=
  BitVec.getLsbD_append

theorem getLsbD_planeC1 (m : Mat) (i : Nat) : (planeC1 m).getLsbD i = (decide (i < 4) && m.getLsbD i) := by
  simp [planeC1]

theorem getLsbD_planeC2 (m : Mat) (i : Nat) : (planeC2 m).getLsbD i = (decide (i < 4) && m.getLsbD (4 + i)) := by
  simp [planeC2]

theorem getLsbD_planeC3 (m : Mat) (i : Nat) : (planeC3 m).getLsbD i = (decide (i < 4) && m.getLsbD (8 + i)) := by
  simp [planeC3]

theorem getLsbD_packPlanes (c1 c2 c3 : Nibble) (i : Nat) :
    (packPlanes c1 c2 c3).getLsbD i =
      if i < 4 then c1.getLsbD i else if i < 8 then c2.getLsbD (i - 4) else c3.getLsbD (i - 8) := by
  have h : (packPlanes c1 c2 c3).getLsbD i =
      if i < 4 then c1.getLsbD i else (c3 ++ c2).getLsbD (i - 4) := BitVec.getLsbD_append
  rw [h, BitVec.getLsbD_append]
  by_cases h4 : i < 4
  · simp [h4]
  · by_cases h8 : i < 8
    · simp [h4, h8, show i - 4 < 4 by omega]
    · simp [h4, h8, show ¬ i - 4 < 4 by omega, show i - 4 - 4 = i - 8 by omega]

@[simp] theorem hiNibble_joinNibbles (h l : Nibble) : hiNibble (joinNibbles h l) = h := by
  apply BitVec.eq_of_getLsbD_eq
  intro i hi
  rw [getLsbD_hiNibble, getLsbD_joinNibbles]
  simp [hi]

@[simp] theorem loNibble_joinNibbles (h l : Nibble) : loNibble (joinNibbles h l) = l := by
  apply BitVec.eq_of_getLsbD_eq
  intro i hi
  rw [getLsbD_loNibble, getLsbD_joinNibbles]
  simp [hi]

/-- A byte is its two nibbles. -/
theorem byte_eq_of_nibbles {a b : Byte} (hh : hiNibble a = hiNibble b) (hl : loNibble a = loNibble b) : a = b := by
  apply BitVec.eq_of_getLsbD_eq
  intro i hi
  by_cases h4 : i < 4
  · have h := congrArg (fun v => BitVec.getLsbD v i) hl
    simpa only [getLsbD_loNibble, h4, decide_true, Bool.true_and] using h
  · have h := congrArg (fun v => BitVec.getLsbD v (i - 4)) hh
    simpa only [getLsbD_hiNibble, show i - 4 < 4 by omega, show 4 + (i - 4) = i by omega, decide_true, Bool.true_and]
      using h

@[simp] theorem planeC1_packPlanes (c1 c2 c3 : Nibble) : planeC1 (packPlanes c1 c2 c3) = c1 := by
  apply BitVec.eq_of_getLsbD_eq
  intro i hi
  rw [getLsbD_planeC1, getLsbD_packPlanes]
  simp [hi]

@[simp] theorem planeC2_packPlanes (c1 c2 c3 : Nibble) : planeC2 (packPlanes c1 c2 c3) = c2 := by
  apply BitVec.eq_of_getLsbD_eq
  intro i hi
  rw [getLsbD_planeC2, getLsbD_packPlanes]
  simp [hi, show 4 + i < 8 by omega]

@[simp] theorem planeC3_packPlanes (c1 c2 c3 : Nibble) : planeC3 (packPlanes c1 c2 c3) = c3 := by
  apply BitVec.eq_of_getLsbD_eq
  intro i hi
  rw [getLsbD_planeC3, getLsbD_packPlanes]
  simp [hi, show ¬ 8 + i < 4 by omega]

/-- A matrix is its three planes. -/
theorem mat_eq_of_planes {m n : Mat} (h1 : planeC1 m = planeC1 n) (h2 : planeC2 m = planeC2 n)
    (h3 : planeC3 m = planeC3 n) : m = n := by
  apply BitVec.eq_of_getLsbD_eq
  intro i hi
  by_cases h4 : i < 4
  · have h := congrArg (fun v => BitVec.getLsbD v i) h1
    simpa only [getLsbD_planeC1, h4, decide_true, Bool.true_and] using h
  · by_cases h8 : i < 8
    · have h := congrArg (fun v => BitVec.getLsbD v (i - 4)) h2
      simpa only [getLsbD_planeC2, show i - 4 < 4 by omega, show 4 + (i - 4) = i by omega, decide_true, Bool.true_and]
        using h
    · have h := congrArg (fun v => BitVec.getLsbD v (i - 8)) h3
      simpa only [getLsbD_planeC3, show i - 8 < 4 by omega, show 8 + (i - 8) = i by omega, decide_true, Bool.true_and]
        using h

theorem packPlanes_planes (m : Mat) : packPlanes (planeC1 m) (planeC2 m) (planeC3 m) = m :=
  mat_eq_of_planes (by simp) (by simp) (by simp)

/-- Each bit of `viol` reports its own check. -/
theorem violations_bits (t : Triple) :
    (violations t).getLsbD 0 = (!checkC1 t.b0 t.b1) ∧ (violations t).getLsbD 1 = (!checkC2 t.b0 t.b2) ∧
      (violations t).getLsbD 2 = (!checkC3 t.b1 t.b2) := by
  unfold violations
  cases checkC1 t.b0 t.b1 <;> cases checkC2 t.b0 t.b2 <;> cases checkC3 t.b1 t.b2 <;> decide

/-- No violation is reported exactly when the three checks hold. -/
theorem violations_eq_zero_iff (t : Triple) :
    violations t = 0 ↔ checkC1 t.b0 t.b1 = true ∧ checkC2 t.b0 t.b2 = true ∧ checkC3 t.b1 t.b2 = true := by
  unfold violations
  cases checkC1 t.b0 t.b1 <;> cases checkC2 t.b0 t.b2 <;> cases checkC3 t.b1 t.b2 <;> decide

theorem checkC1_iff (b0 b1 : Byte) : checkC1 b0 b1 = true ↔ hiNibble b1 = ~~~loNibble b0 := by simp [checkC1]
theorem checkC2_iff (b0 b2 : Byte) : checkC2 b0 b2 = true ↔ loNibble b2 = ~~~hiNibble b0 := by simp [checkC2]
theorem checkC3_iff (b1 b2 : Byte) : checkC3 b1 b2 = true ↔ hiNibble b2 = ~~~loNibble b1 := by simp [checkC3]

/-- `Decode` has two outcomes, told apart by the violations. -/
theorem decodeTriple_cases (t : Triple) :
    (violations t = 0 ∧ decodeTriple t = .ok (extract t)) ∨
    (violations t ≠ 0 ∧ decodeTriple t = .err (.redundancyViolation (violations t))) := by
  by_cases h : violations t = 0
  · exact .inl ⟨h, by simp [decodeTriple, validate, h]⟩
  · have hb : (violations t == 0) = false := beq_eq_false_iff_ne.mpr h
    exact .inr ⟨h, by simp only [decodeTriple, validate, hb]⟩

end Sys2Proof.Machine
end

