-- ==== Sys2Proof/Laws/Decode.lean ====
section
/-! SUPPORT. The fields of a packed transaction word, and the register addresses both ways. -/

namespace Sys2Proof

@[simp] theorem ofAddr_addr (reg : Reg) : Reg.ofAddr reg.addr = reg := by cases reg <;> decide

theorem addr_ofAddr (a : RegAddr) : (Reg.ofAddr a).addr = a := by revert a; decide

theorem getLsbD_packWord (rw : BitVec 1) (reg : Reg) (data : Byte) (i : Nat) :
    (packWord rw reg data).getLsbD i =
      if i < 8 then data.getLsbD i else if i < 11 then reg.addr.getLsbD (i - 8) else rw.getLsbD (i - 11) := by
  have h : (packWord rw reg data).getLsbD i =
      if i < 8 then data.getLsbD i else (rw ++ reg.addr).getLsbD (i - 8) := BitVec.getLsbD_append
  rw [h, BitVec.getLsbD_append]
  by_cases h8 : i < 8
  · simp [h8]
  · by_cases h11 : i < 11
    · simp [h8, h11, show i - 8 < 3 by omega]
    · simp [h8, h11, show ¬ i - 8 < 3 by omega, show i - 8 - 3 = i - 11 by omega]

@[simp] theorem rwField_packWord (rw : BitVec 1) (reg : Reg) (data : Byte) : rwField (packWord rw reg data) = rw := by
  apply BitVec.eq_of_getLsbD_eq
  intro i hi
  rw [rwField, BitVec.getLsbD_extractLsb', getLsbD_packWord]
  simp [hi, show ¬ 11 + i < 8 by omega]

@[simp] theorem addrField_packWord (rw : BitVec 1) (reg : Reg) (data : Byte) :
    addrField (packWord rw reg data) = reg.addr := by
  apply BitVec.eq_of_getLsbD_eq
  intro i hi
  rw [addrField, BitVec.getLsbD_extractLsb', getLsbD_packWord]
  simp [hi, show 8 + i < 11 by omega]

@[simp] theorem dataField_packWord (rw : BitVec 1) (reg : Reg) (data : Byte) :
    dataField (packWord rw reg data) = data := by
  apply BitVec.eq_of_getLsbD_eq
  intro i hi
  rw [dataField, BitVec.getLsbD_extractLsb', getLsbD_packWord]
  simp [hi]

/-- A word is its three fields. -/
theorem packWord_fields (w : TxnWord) : packWord (rwField w) (Reg.ofAddr (addrField w)) (dataField w) = w := by
  apply BitVec.eq_of_getLsbD_eq
  intro i hi
  rw [getLsbD_packWord, addr_ofAddr, rwField, addrField, dataField]
  simp only [BitVec.getLsbD_extractLsb']
  by_cases h8 : i < 8
  · simp [h8]
  · by_cases h11 : i < 11
    · simp [h8, h11, show i - 8 < 3 by omega, show 8 + (i - 8) = i by omega]
    · simp [h8, h11, show i - 11 < 1 by omega, show 11 + (i - 11) = i by omega]

/-- The instruction of a command code (R64). -/
theorem decodeCommand_cases (d : Byte) :
    (d = 0x00 ∧ decodeCommand d = .nop) ∨ (d = 0x01 ∧ decodeCommand d = .decode) ∨
    (d = 0x02 ∧ decodeCommand d = .encode) ∨ (d = 0x03 ∧ decodeCommand d = .check) ∨
    (4 ≤ d.toNat ∧ decodeCommand d = .cmdReserved d) := by
  have hd : ∀ n : Nat, d.toNat = n → d = BitVec.ofNat 8 n := by
    intro n h; rw [← h]; simp
  unfold decodeCommand
  split
  · exact .inl ⟨hd 0 ‹_›, rfl⟩
  · exact .inr (.inl ⟨hd 1 ‹_›, rfl⟩)
  · exact .inr (.inr (.inl ⟨hd 2 ‹_›, rfl⟩))
  · exact .inr (.inr (.inr (.inl ⟨hd 3 ‹_›, rfl⟩)))
  · rename_i h0 h1 h2 h3
    exact .inr (.inr (.inr (.inr ⟨by
      simp only [imp_false] at *
      omega, rfl⟩)))

end Sys2Proof
end

