-- ==== Sys2Proof/Laws/State.lean ====
section
/-! SUPPORT. One lemma per field and update of the state, so that no later proof unfolds a record update. -/

namespace Sys2Proof.Machine

@[simp] theorem onBlock_block (f : Block → Block) (s : State) : (s.onBlock f).block = f s.block := rfl
@[simp] theorem onBlock_pending (f : Block → Block) (s : State) : (s.onBlock f).pending = s.pending := rfl
@[simp] theorem onBlock_reads (f : Block → Block) (s : State) : (s.onBlock f).reads = s.reads := rfl

@[simp] theorem respond_block (x : Byte) (s : State) : (s.respond x).block = s.block := rfl
@[simp] theorem respond_pending (x : Byte) (s : State) : (s.respond x).pending = s.pending := rfl
@[simp] theorem respond_reads (x : Byte) (s : State) : (s.respond x).reads = s.reads ++ [x] := rfl

@[simp] theorem resetEvent_block (s : State) : s.resetEvent.block = Block.reset := rfl
@[simp] theorem resetEvent_pending (s : State) : s.resetEvent.pending = s.pending := rfl
@[simp] theorem resetEvent_reads (s : State) : s.resetEvent.reads = [] := rfl

@[simp] theorem withProgram_block (ws : List TxnWord) (s : State) : (s.withProgram ws).block = s.block := rfl
@[simp] theorem withProgram_pending (ws : List TxnWord) (s : State) : (s.withProgram ws).pending = ws.map .txn := rfl
@[simp] theorem withProgram_reads (ws : List TxnWord) (s : State) : (s.withProgram ws).reads = s.reads := rfl

@[simp] theorem succeed_acb0 (b : Block) : b.succeed.acb0 = b.acb0 := rfl
@[simp] theorem succeed_acb1 (b : Block) : b.succeed.acb1 = b.acb1 := rfl
@[simp] theorem succeed_acb2 (b : Block) : b.succeed.acb2 = b.acb2 := rfl
@[simp] theorem succeed_mat (b : Block) : b.succeed.mat = b.mat := rfl
@[simp] theorem succeed_status (b : Block) : b.succeed.status = Status.success := rfl

@[simp] theorem raise_acb0 (e : BlockError) (b : Block) : (b.raise e).acb0 = b.acb0 := rfl
@[simp] theorem raise_acb1 (e : BlockError) (b : Block) : (b.raise e).acb1 = b.acb1 := rfl
@[simp] theorem raise_acb2 (e : BlockError) (b : Block) : (b.raise e).acb2 = b.acb2 := rfl
@[simp] theorem raise_mat (e : BlockError) (b : Block) : (b.raise e).mat = b.mat := rfl
@[simp] theorem raise_status (e : BlockError) (b : Block) : (b.raise e).status = Status.ofError e := rfl

@[simp] theorem writeAcb0_acb0 (d : Byte) (b : Block) : (b.writeAcb0 d).acb0 = d := rfl
@[simp] theorem writeAcb0_acb1 (d : Byte) (b : Block) : (b.writeAcb0 d).acb1 = b.acb1 := rfl
@[simp] theorem writeAcb0_acb2 (d : Byte) (b : Block) : (b.writeAcb0 d).acb2 = b.acb2 := rfl
@[simp] theorem writeAcb0_mat (d : Byte) (b : Block) : (b.writeAcb0 d).mat = b.mat := rfl
@[simp] theorem writeAcb0_status (d : Byte) (b : Block) : (b.writeAcb0 d).status = b.status := rfl

@[simp] theorem writeAcb1_acb0 (d : Byte) (b : Block) : (b.writeAcb1 d).acb0 = b.acb0 := rfl
@[simp] theorem writeAcb1_acb1 (d : Byte) (b : Block) : (b.writeAcb1 d).acb1 = d := rfl
@[simp] theorem writeAcb1_acb2 (d : Byte) (b : Block) : (b.writeAcb1 d).acb2 = b.acb2 := rfl
@[simp] theorem writeAcb1_mat (d : Byte) (b : Block) : (b.writeAcb1 d).mat = b.mat := rfl
@[simp] theorem writeAcb1_status (d : Byte) (b : Block) : (b.writeAcb1 d).status = b.status := rfl

@[simp] theorem writeAcb2_acb0 (d : Byte) (b : Block) : (b.writeAcb2 d).acb0 = b.acb0 := rfl
@[simp] theorem writeAcb2_acb1 (d : Byte) (b : Block) : (b.writeAcb2 d).acb1 = b.acb1 := rfl
@[simp] theorem writeAcb2_acb2 (d : Byte) (b : Block) : (b.writeAcb2 d).acb2 = d := rfl
@[simp] theorem writeAcb2_mat (d : Byte) (b : Block) : (b.writeAcb2 d).mat = b.mat := rfl
@[simp] theorem writeAcb2_status (d : Byte) (b : Block) : (b.writeAcb2 d).status = b.status := rfl

@[simp] theorem writeMatLo_acb0 (d : Byte) (b : Block) : (b.writeMatLo d).acb0 = b.acb0 := rfl
@[simp] theorem writeMatLo_acb1 (d : Byte) (b : Block) : (b.writeMatLo d).acb1 = b.acb1 := rfl
@[simp] theorem writeMatLo_acb2 (d : Byte) (b : Block) : (b.writeMatLo d).acb2 = b.acb2 := rfl
@[simp] theorem writeMatLo_status (d : Byte) (b : Block) : (b.writeMatLo d).status = b.status := rfl

@[simp] theorem writeMatHi_acb0 (d : Byte) (b : Block) : (b.writeMatHi d).acb0 = b.acb0 := rfl
@[simp] theorem writeMatHi_acb1 (d : Byte) (b : Block) : (b.writeMatHi d).acb1 = b.acb1 := rfl
@[simp] theorem writeMatHi_acb2 (d : Byte) (b : Block) : (b.writeMatHi d).acb2 = b.acb2 := rfl
@[simp] theorem writeMatHi_status (d : Byte) (b : Block) : (b.writeMatHi d).status = b.status := rfl

@[simp] theorem setTriple_triple (t : Triple) (b : Block) : (b.setTriple t).triple = t := rfl
@[simp] theorem setTriple_acb0 (t : Triple) (b : Block) : (b.setTriple t).acb0 = t.b0 := rfl
@[simp] theorem setTriple_acb1 (t : Triple) (b : Block) : (b.setTriple t).acb1 = t.b1 := rfl
@[simp] theorem setTriple_acb2 (t : Triple) (b : Block) : (b.setTriple t).acb2 = t.b2 := rfl
@[simp] theorem setTriple_mat (t : Triple) (b : Block) : (b.setTriple t).mat = b.mat := rfl
@[simp] theorem setTriple_status (t : Triple) (b : Block) : (b.setTriple t).status = b.status := rfl

@[simp] theorem triple_b0 (b : Block) : b.triple.b0 = b.acb0 := rfl
@[simp] theorem triple_b1 (b : Block) : b.triple.b1 = b.acb1 := rfl
@[simp] theorem triple_b2 (b : Block) : b.triple.b2 = b.acb2 := rfl
@[simp] theorem triple_succeed (b : Block) : b.succeed.triple = b.triple := rfl
@[simp] theorem triple_raise (e : BlockError) (b : Block) : (b.raise e).triple = b.triple := rfl

end Sys2Proof.Machine
end

