-- ==== Sys2Proof/Laws/Ops.lean ====
section
/-! SUPPORT. What each shared operation, each command and a step can do, said once. -/

namespace Sys2Proof.Machine

/-- DECODE either extracts a valid field and records success, or records the violations and writes nothing else. -/
theorem runDecode_cases (b : Block) :
    (violations b.triple = 0 ∧ b.runDecode = { b with mat := extract b.triple, status := Status.success }) ∨
    (violations b.triple ≠ 0 ∧ b.runDecode = b.raise (.redundancyViolation (violations b.triple))) := by
  rcases decodeTriple_cases b.triple with ⟨h, hd⟩ | ⟨h, hd⟩
  · exact .inl ⟨h, by simp [Block.runDecode, hd, Block.succeed]⟩
  · exact .inr ⟨h, by simp [Block.runDecode, hd]⟩

/-- CHECK either records success or records the violations, and writes nothing else. -/
theorem runCheck_cases (b : Block) :
    (violations b.triple = 0 ∧ b.runCheck = b.succeed) ∨
    (violations b.triple ≠ 0 ∧ b.runCheck = b.raise (.redundancyViolation (violations b.triple))) := by
  by_cases h : violations b.triple = 0
  · exact .inl ⟨h, by simp [Block.runCheck, validate, h]⟩
  · have hb : (violations b.triple == 0) = false := beq_eq_false_iff_ne.mpr h
    exact .inr ⟨h, by simp only [Block.runCheck, validate, hb]⟩

/-- The command of a code (R64, R130): one of the four, or the reserved record. -/
theorem execute_cases (d : Byte) (b : Block) :
    (d = 0x00 ∧ b.execute d = b) ∨ (d = 0x01 ∧ b.execute d = b.runDecode) ∨
    (d = 0x02 ∧ b.execute d = b.runEncode) ∨ (d = 0x03 ∧ b.execute d = b.runCheck) ∨
    (4 ≤ d.toNat ∧ b.execute d = b.runReserved) := by
  have hd : ∀ n : Nat, d.toNat = n → d = BitVec.ofNat 8 n := by
    intro n h; rw [← h]; simp
  unfold Block.execute
  split
  · exact .inl ⟨hd 0 ‹_›, rfl⟩
  · exact .inr (.inl ⟨hd 1 ‹_›, rfl⟩)
  · exact .inr (.inr (.inl ⟨hd 2 ‹_›, rfl⟩))
  · exact .inr (.inr (.inr (.inl ⟨hd 3 ‹_›, rfl⟩)))
  · rename_i h0 h1 h2 h3
    exact .inr (.inr (.inr (.inr ⟨by
      simp only [imp_false] at *
      omega, rfl⟩)))

/-- The host port is empty or gives its first event and keeps the others. -/
theorem fetch_cases (s : State) :
    (s.pending = [] ∧ s.fetch = none) ∨
    (∃ e rest, s.pending = e :: rest ∧ s.fetch = some (e, { s with pending := rest })) := by
  unfold State.fetch
  cases h : s.pending with
  | nil => exact .inl ⟨rfl, rfl⟩
  | cons e rest => exact .inr ⟨e, rest, rfl, rfl⟩

/-- A step idles, runs the first transaction word, or resets. -/
theorem step_cases (s : State) :
    (s.pending = [] ∧ step s = .next s) ∨
    (∃ w rest, s.pending = .txn w :: rest ∧ step s = exec (decodeWord w) { s with pending := rest }) ∨
    (∃ rest, s.pending = .reset :: rest ∧ step s = .next { State.reset with pending := rest }) := by
  rcases fetch_cases s with ⟨hp, hf⟩ | ⟨e, rest, hp, hf⟩
  · exact .inl ⟨hp, by simp [step, hf]⟩
  · cases e with
    | txn w => exact .inr (.inl ⟨w, rest, hp, by simp [step, hf]⟩)
    | reset => exact .inr (.inr ⟨rest, hp, by simp [step, hf, State.resetEvent]⟩)

/-- A run whose first step goes on is the rest of the run from there. -/
theorem run_succ_next (M : Host.Core) (n : Nat) {s t : M.State} (h : M.step s = .next t) : M.run (n + 1) s = M.run n t := by
  simp [Host.Core.run, h]

theorem getLsbD_writeMatLo (d : Byte) (b : Block) (i : Nat) :
    (b.writeMatLo d).mat.getLsbD i = if i < 8 then d.getLsbD i else (b.mat.extractLsb' 8 4).getLsbD (i - 8) :=
  BitVec.getLsbD_append

theorem getLsbD_writeMatHi (d : Byte) (b : Block) (i : Nat) :
    (b.writeMatHi d).mat.getLsbD i =
      if i < 8 then (b.mat.extractLsb' 0 8).getLsbD i else (d.extractLsb' 0 4).getLsbD (i - 8) :=
  BitVec.getLsbD_append

end Sys2Proof.Machine
end

