-- ==== Sys2Proof/Laws/PerInstr.lean ====
section
/-! SUPPORT. For every instruction: its word lies in its row of the opcode table (spec/opcode_table.json; R60, R69). -/

namespace Sys2Proof.Laws.TableRow

/-- The encoded word of `i` has the fixed bits of the row of `i`. -/
def Statement (i : Instr) : Prop := (opcodeRow i.row).hits (encode i) = true

/-- A write word keeps the row bits `{1, ADDR}` whatever its data is. -/
theorem write_mask (reg : Reg) (data : Byte) : writeTxn reg data &&& 0xF00 = packWord 1 reg 0 := by
  have h : ∀ a : BitVec (1 + 3), (a ++ data) &&& ((0xF : BitVec (1 + 3)) ++ (0 : Byte)) = a ++ (0 : Byte) := by
    intro a
    rw [BitVec.and_append]
    congr 1
    · revert a; decide
    · simp
  exact h (1 ++ reg.addr)

theorem rd (reg : Reg) : Statement (.rd reg) := by cases reg <;> unfold Statement <;> decide
theorem wrAcb0 (data : Byte) : Statement (.wrAcb0 data) := beq_iff_eq.mpr (write_mask .acb0 data)
theorem wrAcb1 (data : Byte) : Statement (.wrAcb1 data) := beq_iff_eq.mpr (write_mask .acb1 data)
theorem wrAcb2 (data : Byte) : Statement (.wrAcb2 data) := beq_iff_eq.mpr (write_mask .acb2 data)
theorem wrRsvd3 (data : Byte) : Statement (.wrRsvd3 data) := beq_iff_eq.mpr (write_mask .rsvd3 data)
theorem wrMatLo (data : Byte) : Statement (.wrMatLo data) := beq_iff_eq.mpr (write_mask .matLo data)
theorem wrMatHi (data : Byte) : Statement (.wrMatHi data) := beq_iff_eq.mpr (write_mask .matHi data)
theorem wrStatus (data : Byte) : Statement (.wrStatus data) := beq_iff_eq.mpr (write_mask .status data)
theorem nop : Statement .nop := by unfold Statement; decide
theorem decode : Statement .decode := by unfold Statement; decide
theorem encode : Statement .encode := by unfold Statement; decide
theorem check : Statement .check := by unfold Statement; decide
theorem cmdReserved (code : Byte) : Statement (.cmdReserved code) := beq_iff_eq.mpr (write_mask .cmd code)

end Sys2Proof.Laws.TableRow
end

