-- ==== Sys2Proof/Tests/Slice0.lean ====
section
/-! SUPPORT. Tests and witnesses. Every expected value is a vector of spec/95_test_vectors.md (the section is named), an
example of a rule, or worked by hand from a rule. Each test runs at most one step. -/

namespace Sys2Proof.Tests

open Sys2Proof Sys2Proof.Machine

/-- A machine with the given registers, nothing on its port. -/
def machine (b0 b1 b2 : Byte) (m : Mat) (st : Status) : State := ⟨⟨b0, b1, b2, m, st⟩, [], []⟩

/-- A STATUS from its byte (R68). -/
def statusOf (b : Byte) : Status := Status.ofBits (b.setWidth 6)

/-- The state a transaction leads to, reset where it leads to none. -/
def after (i : Instr) (s : State) : State :=
  match exec i s with
  | .next t => t
  | .fault _ => State.reset
  | .refused _ => State.reset

-- WellFormed: its one check, and that the check takes the boundary ---------------------------------------------------

theorem test_illformed_reserved_code_refused :
    (Instr.cmdReserved 0x00).wf = false ∧ (Instr.cmdReserved 0x01).wf = false ∧ (Instr.cmdReserved 0x02).wf = false ∧
      (Instr.cmdReserved 0x03).wf = false := by decide
theorem test_reserved_code_boundaries_wellformed :
    (Instr.cmdReserved 0x04).wf = true ∧ (Instr.cmdReserved 0xFF).wf = true := by decide

-- Decoding: words written out from R60 and R64, bit by bit ({RW, ADDR, DATA}) ----------------------------------------

theorem test_decode_rd : decodeWord 0b011000000000 = .rd .status ∧ decodeWord 0b001110101010 = .rd .rsvd3 := by decide
theorem test_decode_wrAcb0 : decodeWord 0b100011111111 = .wrAcb0 0xFF := by decide
theorem test_decode_wrAcb1 : decodeWord 0b100100000111 = .wrAcb1 0x07 := by decide
theorem test_decode_wrAcb2 : decodeWord 0b101010000000 = .wrAcb2 0x80 := by decide
theorem test_decode_wrRsvd3 : decodeWord 0b101101101001 = .wrRsvd3 0x69 := by decide
theorem test_decode_wrMatLo : decodeWord 0b110000110101 = .wrMatLo 0x35 := by decide
theorem test_decode_wrMatHi : decodeWord 0b110111111001 = .wrMatHi 0xF9 := by decide
theorem test_decode_wrStatus : decodeWord 0b111000000000 = .wrStatus 0x00 := by decide
theorem test_decode_nop : decodeWord 0b111100000000 = .nop := by decide
theorem test_decode_decode : decodeWord 0b111100000001 = .decode := by decide
theorem test_decode_encode : decodeWord 0b111100000010 = .encode := by decide
theorem test_decode_check : decodeWord 0b111100000011 = .check := by decide
theorem test_decode_cmdReserved :
    decodeWord 0b111100000100 = .cmdReserved 0x04 ∧ decodeWord 0b111111111111 = .cmdReserved 0xFF := by decide

/-- The assembled words of R71 and R72. -/
theorem test_encode_words :
    encode (.rd .acb1) = 0x100 ∧ encode (.wrMatHi 0xF9) = 0xDF9 ∧ encode .check = 0xF03 ∧
      encode (.cmdReserved 0x7E) = 0xF7E := by decide
theorem test_decode_table_word :
    decodeTableWord 16 0xA80 = some (.wrAcb2 0x80) ∧ decodeTableWord 12 0xF01 = some .decode ∧
      decodeTableWord 16 0x1000 = none := by decide

-- Bus transactions from reset: 95_test_vectors.md section 2.7 --------------------------------------------------------

theorem test_rd_reset_registers :
    (after (.rd .acb0) .reset).reads = [0xFF] ∧ (after (.rd .acb1) .reset).reads = [0x0F] ∧
      (after (.rd .rsvd3) .reset).reads = [0x00] ∧ (after (.rd .status) .reset).reads = [0x00] ∧
      (after (.rd .cmd) .reset).reads = [0x00] := by decide
theorem test_rd_matrix_views :
    (after (.rd .matHi) (machine 0 0 0 0x935 .success)).reads = [0x09] ∧
      (after (.rd .matLo) (machine 0 0 0 0x935 .success)).reads = [0x35] := by decide
theorem test_wrAcb0 : (after (.wrAcb0 0xA5) .reset).block = ⟨0xA5, 0x0F, 0x00, 0x000, statusOf 0x00⟩ := by decide
theorem test_wrAcb1 : (after (.wrAcb1 0x5A) .reset).block = ⟨0xFF, 0x5A, 0x00, 0x000, statusOf 0x00⟩ := by decide
theorem test_wrAcb2 : (after (.wrAcb2 0x3C) .reset).block = ⟨0xFF, 0x0F, 0x3C, 0x000, statusOf 0x00⟩ := by decide
theorem test_wrRsvd3_ignored : (after (.wrRsvd3 0x69) .reset).block = Block.reset := by decide
theorem test_wrMatLo_keeps_c3 : (after (.wrMatLo 0x35) (machine 0 0 0 0x9FF .success)).block.mat = 0x935 := by decide
theorem test_wrMatHi_discards_high_nibble : (after (.wrMatHi 0xF9) .reset).block.mat = 0x900 := by decide
/-- The example of R117. -/
theorem test_wrStatus_ignored :
    (after (.wrStatus 0x00) (machine 0xFF 0x07 0x81 0 (statusOf 0x12))).block.status.toByte = 0x12 := by decide

-- Commands: section 2.8 ----------------------------------------------------------------------------------------------

theorem test_nop_keeps_record : (after .nop (machine 0xFF 0x07 0x80 0x800 (statusOf 0x12))).block =
    ⟨0xFF, 0x07, 0x80, 0x800, statusOf 0x12⟩ := by decide
theorem test_decode_valid : (after .decode (machine 0xFF 0x07 0x80 0x123 (statusOf 0x00))).block =
    ⟨0xFF, 0x07, 0x80, 0x800, statusOf 0x01⟩ := by decide
theorem test_decode_invalid_keeps_mat : (after .decode (machine 0xFF 0x07 0x81 0x123 (statusOf 0x01))).block =
    ⟨0xFF, 0x07, 0x81, 0x123, statusOf 0x12⟩ := by decide
theorem test_encode_overwrites_invalid : (after .encode (machine 0x00 0x00 0x00 0x935 (statusOf 0x00))).block =
    ⟨0xCA, 0x56, 0x93, 0x935, statusOf 0x01⟩ := by decide
theorem test_check_invalid : (after .check (machine 0xFF 0x06 0x80 0x123 (statusOf 0x01))).block =
    ⟨0xFF, 0x06, 0x80, 0x123, statusOf 0x22⟩ := by decide
theorem test_check_valid_leaves_mat : (after .check (machine 0xCA 0x56 0x93 0x000 (statusOf 0x3A))).block =
    ⟨0xCA, 0x56, 0x93, 0x000, statusOf 0x01⟩ := by decide
theorem test_reserved_code : (after (.cmdReserved 0x7E) (machine 0xFF 0x07 0x80 0x800 (statusOf 0x01))).block =
    ⟨0xFF, 0x07, 0x80, 0x800, statusOf 0x06⟩ := by decide

-- Codec core: sections 2.1 to 2.6 ------------------------------------------------------------------------------------

theorem test_violations : violations ⟨0x00, 0x00, 0x00⟩ = 0b111 ∧ violations ⟨0xFE, 0x07, 0x80⟩ = 0b001 ∧
    violations ⟨0xEF, 0x17, 0x80⟩ = 0b011 ∧ violations ⟨0xFF, 0x0F, 0x80⟩ = 0b100 ∧
    violations ⟨0x0F, 0x00, 0xFF⟩ = 0 := by decide
theorem test_encode_planes : encodeMat 0x00F = ⟨0xF0, 0xFF, 0x00⟩ ∧ encodeMat 0x0F0 = ⟨0x0F, 0x0F, 0x0F⟩ ∧
    encodeMat 0xF00 = ⟨0xFF, 0x00, 0xF0⟩ ∧ encodeMat 0x7A3 = ⟨0x5C, 0x38, 0x7A⟩ := by decide
/-- The column check of section 2.2 for `CA 56 93`. -/
theorem test_columns : column (extract ⟨0xCA, 0x56, 0x93⟩) 0 = (true, true, true) ∧
    column (extract ⟨0xCA, 0x56, 0x93⟩) 1 = (false, true, false) ∧
    column (extract ⟨0xCA, 0x56, 0x93⟩) 2 = (true, false, false) ∧
    column (extract ⟨0xCA, 0x56, 0x93⟩) 3 = (false, false, true) := by decide
/-- Section 2.6: a corruption no check sees. -/
theorem test_undetected_flip : decodeTriple ⟨0xFE, 0x17, 0x80⟩ = .ok 0x801 := by decide
/-- Section 2.9. -/
theorem test_status_bytes : Status.toByte ⟨false, .redundancyViolation, 0b001⟩ = 0x0A ∧
    Status.toByte ⟨false, .redundancyViolation, 0b100⟩ = 0x22 ∧ Status.toByte ⟨true, .none, 0⟩ = 0x01 ∧
    Status.toByte ⟨false, .illegalCommand, 0⟩ = 0x06 := by decide

-- Adapters and assembler: section 2.10, and the examples of R71 and R72 ----------------------------------------------

def transportRows : List (List Nat) := [[0, 0, 0, 0], [0, 0, 0, 0], [0, 0, 0, 1]]

theorem test_encodeMatrix : (encodeMatrix transportRows .reset).result = .ok ⟨0xFF, 0x07, 0x80⟩ ∧
    (encodeMatrix transportRows .reset).issued = [0xC00, 0xD08, 0xF02, 0x000, 0x100, 0x200] := by decide
theorem test_encodeMatrix_shape : (encodeMatrix [[0, 0, 0, 0], [0, 0, 0, 0]] .reset).result = .err .shapeMismatch ∧
    (encodeMatrix [[0, 0, 0, 0], [0, 0, 0, 0], [0, 0, 0, 2]] .reset).result = .err .shapeMismatch := by decide
theorem test_decodeBytes : (decodeBytes [0xFF, 0x07, 0x80, 0x69] .reset).result = .ok transportRows ∧
    (decodeBytes [0xFF, 0x07, 0x80, 0x69] .reset).issued = [0x8FF, 0x907, 0xA80, 0xF01, 0x600, 0x400, 0x500] := by decide
theorem test_decodeBytes_errors : (decodeBytes [0xFF, 0x07, 0x81] .reset).result = .err (.redundancyViolation 0b010) ∧
    (decodeBytes [0xFF, 0x07] .reset).result = .err .inputLength := by decide
/-- A whole trailer: bytes 6 to 8 are the field and byte 9 is never an input (R168). -/
theorem test_decodeBytes_trailer :
    (decodeBytes [1, 2, 3, 4, 5, 6, 0xFF, 0x07, 0x80, 0x69, 7, 8, 9, 10, 11, 12] .reset).result = .ok transportRows := by
  decide
theorem test_assembler_line : assembleLine ("wr MAT_HI, 0xF9   ; 0xDF9".toList) = some [0xDF9] ∧
    assembleLine ("LDACB 0xFF, 0x07, 0x80".toList) = some [0x8FF, 0x907, 0xA80] ∧
    assembleLine ("rd 6".toList) = some [0x600] ∧ assembleLine ("; only a comment".toList) = some [] ∧
    assembleLine ("wr ACB0, 0x".toList) = none := by decide

/-- R71: mixed case in a mnemonic, and a decimal register address: the premises of AssemblerReadsEveryLine. -/
theorem test_assembler_mixed_case : foldCase ['W', 'r'] = ['w', 'r'] ∧ foldCase ['n', 'O', 'p'] = ['n', 'o', 'p'] ∧
    ('5', Reg.matHi) ∈ [('0', Reg.acb0), ('1', .acb1), ('2', .acb2), ('3', .rsvd3), ('4', .matLo), ('5', .matHi),
      ('6', .status), ('7', .cmd)] ∧
    assembleLine ("Wr 5, 0xF9".toList) = some [0xDF9] ∧ assembleLine ("nOp".toList) = some [0xF00] ∧
    assembleLine ("rd 8".toList) = none := by decide

-- The step -----------------------------------------------------------------------------------------------------------

theorem test_withFetchWord_runs_the_word : step (State.reset.withFetchWord 16 0x8A5) = exec (.wrAcb0 0xA5) .reset := rfl
theorem test_step_idle : step State.reset = .next State.reset := rfl
theorem test_step_reset : step { machine 1 2 3 4 .success with pending := [.reset, .txn 0xF01] } =
    .next { State.reset with pending := [.txn 0xF01] } := rfl

-- Witnesses: for every statement with hypotheses, an input that meets them all ---------------------------------------

/-- EncodedTransactionDecodesBack, DecoderFollowsOpcodeTable. -/
theorem witness_wf : (Instr.cmdReserved 0x04).wf = true := by decide
/-- DecodedWordEncodesBack: a number on either side of each of its two bounds. -/
theorem witness_numbers : 4096 ≤ 4096 ∧ 4095 < 4096 ∧ 2048 ≤ 4095 ∧ 2048 ≤ 2048 ∧ 2047 < 2048 ∧ 0 < 2048 := by decide
/-- DecoderFollowsOpcodeTable: a number the decoder accepts. -/
theorem witness_decodeNat : decodeNat 0xF04 = .ok (.cmdReserved 0x04) := rfl
/-- StepRunsDecodedTransaction, ResetEventGivesResetValues, DecodeAfterResetSucceeds: each kind of port. -/
theorem witness_ports : (State.reset.withProgram [0xF01]).pending = .txn 0xF01 :: [] ∧ State.reset.pending = [] ∧
    ({ State.reset with pending := [.reset, .txn 0xF01] } : State).pending = .reset :: .txn 0xF01 :: [] := by decide
/-- DecodeCommandExtractsOrRecordsViolation, CheckCommandReportsValidity: a field that passes the three checks, and one
that fails each. -/
theorem witness_checks :
    (hiNibble 0x56 = ~~~loNibble 0xCA ∧ loNibble 0x93 = ~~~hiNibble 0xCA ∧ hiNibble 0x93 = ~~~loNibble 0x56) ∧
    hiNibble 0x17 ≠ ~~~loNibble 0xFF ∧ loNibble 0x81 ≠ ~~~hiNibble 0xFF ∧ hiNibble 0x80 ≠ ~~~loNibble 0x06 := by decide
/-- ReservedCodeRecordsIllegalCommand, CommandWriteExecutesItsCode: the ends of the reserved range. -/
theorem witness_reserved_range : 4 ≤ (0x04 : Byte).toNat ∧ 4 ≤ (0xFF : Byte).toNat := by decide
/-- DataWriteLeavesOtherLocations: a register that is not CMD, and a location beside it. -/
theorem witness_other_location : Reg.matHi ≠ .cmd ∧ Reg.matLo ≠ .matHi := by decide
/-- CommandsLeaveTheirSources: a command that writes STATUS and is neither ENCODE nor DECODE, and those two. -/
theorem witness_status_writers : Instr.check.writesStatus = true ∧ Instr.check ≠ .encode ∧ Instr.check ≠ .decode ∧
    Instr.encode.writesStatus = true ∧ Instr.encode ≠ .decode ∧ Instr.decode.writesStatus = true := by decide
/-- OnlyCommandsAndResetWriteStatus: a step that changes STATUS. -/
theorem witness_status_changes : ∃ t, step (State.reset.withProgram [0xF01]) = .next t ∧
    t.block.status ≠ (State.reset.withProgram [0xF01]).block.status := ⟨_, rfl, by decide⟩
/-- OnlyNamedWritersChangeDataRegisters: a step that changes MAT, and one that changes an access byte. -/
theorem witness_data_changes :
    (∃ t, step (State.reset.withProgram [0xC35]) = .next t ∧ t.block.mat ≠ State.reset.block.mat) ∧
    (∃ t, step (State.reset.withProgram [0x8A5]) = .next t ∧ t.block.triple ≠ State.reset.block.triple) :=
  ⟨⟨_, rfl, by decide⟩, ⟨_, rfl, by decide⟩⟩
/-- ReadsDetermineTheBlock. -/
theorem witness_same_reads : ∀ r : Reg, Block.reset.memRead r = State.reset.block.memRead r := fun _ => rfl
/-- LoadOrderDoesNotMatter: a load in another order. -/
theorem witness_permutations : [0xA80, 0x8FF, 0x907].Perm (AsmLine.ldacb ⟨0xFF, 0x07, 0x80⟩).words ∧
    [0xD09, 0xC35].Perm (AsmLine.ldmat 0x935).words := by decide
/-- StatusStaysLegal. -/
theorem witness_legal_step : State.reset.block.status.Legal ∧ ∃ t, step State.reset = .next t :=
  ⟨by unfold Status.Legal; decide, _, rfl⟩
/-- RecordPersistsUntilNextCommand: a read, a data write, an ignored write and a NOP. -/
theorem witness_no_status_writer : ∀ w ∈ [(0x600 : TxnWord), 0xA81, 0xE00, 0xF00], (decodeWord w).writesStatus = false := by
  simp only [List.mem_cons, List.not_mem_nil, or_false, forall_eq_or_imp, forall_eq]
  decide
/-- RegistersStayCoherent: both ways to coherence, and words after them. -/
theorem witness_coherent : decodeWord 0xF02 = .encode ∧ decodeWord 0xF01 = .decode ∧
    (State.reset.transact 0xF01).block.status.valid = true ∧
    ∀ v ∈ [(0x600 : TxnWord), 0xF03, 0xF04, 0xF01], (decodeWord v).writesData = false := by
  simp only [List.mem_cons, List.not_mem_nil, or_false, forall_eq_or_imp, forall_eq]
  decide
/-- DecodeFailsExactlyOnViolation, EncodeOfDecodeIsTheField, SingleBitFlipFailsOneCheck, MatrixReadsFollowValidField: a
valid field, and one that is not. -/
theorem witness_valid : (validate ⟨0xCA, 0x56, 0x93⟩).1 = true ∧ (validate ⟨0xFF, 0x07, 0x81⟩).1 ≠ true := by decide
/-- UndetectedCorruptionsFlipBothCopies: a valid field and a corruption that leaves it valid. -/
theorem witness_undetected : (validate ⟨0xFF, 0x07, 0x80⟩).1 = true ∧
    (validate (Triple.flip ⟨0xFF, 0x07, 0x80⟩ ⟨0x01, 0x10, 0x00⟩)).1 = true := by decide
/-- EncodeMatrixFollowsTheCodec, AdaptersRoundTrip: a well-shaped array, and one of each kind that is not. -/
theorem witness_rows : wellShaped transportRows = true ∧ wellShaped [[0, 0, 0], [0, 0, 0], [0, 0, 0]] = false ∧
    wellShaped [[0, 0, 0, 0], [0, 0, 0, 0]] = false ∧ wellShaped [[0, 0, 0, 0], [0, 0, 0, 0], [0, 0, 0, 2]] = false ∧
    (transportRows.length = 3 ∧ transportRows.all (fun r => r.length == 4 && r.all (fun x => x == 0 || x == 1)) = true) := by
  decide
/-- DecodeBytesFollowsTheCodec: sources of each accepted length, one of another, and fields of both outcomes. -/
theorem witness_sources : fieldOfSource [0xFF, 0x07, 0x80] = some ⟨0xFF, 0x07, 0x80⟩ ∧
    fieldOfSource [0xFF, 0x07, 0x80, 0x69] = some ⟨0xFF, 0x07, 0x80⟩ ∧
    fieldOfSource (List.replicate 6 0 ++ [0xFF, 0x07, 0x80] ++ List.replicate 7 0) = some ⟨0xFF, 0x07, 0x80⟩ ∧
    ([0xFF, 0x07] : List Byte).length ≠ 3 ∧ ([0xFF, 0x07] : List Byte).length ≠ 4 ∧ ([0xFF, 0x07] : List Byte).length ≠ 16 ∧
    decodeTriple ⟨0xFF, 0x07, 0x80⟩ = .ok 0x800 ∧
    decodeTriple ⟨0xFF, 0x07, 0x81⟩ = .err (.redundancyViolation 0b010) := by decide
/-- InstanceStepIsLocal: another instance. -/
theorem witness_two_instances : (1 : Fin 2) ≠ 0 := by decide

end Sys2Proof.Tests
end

section
/-! PROOFS. Instances of a system never interfere (spec/20_memory.md R55, 60_exceptions.md R162): what one event does to
the state it is sent to and to every other, lifted to any interleaving of events. -/

namespace Sys2Proof.Machine

@[simp] theorem State.applyAll_nil (s : State) : s.applyAll [] = s := rfl

@[simp] theorem State.applyAll_cons (e : HostEvent) (es : List HostEvent) (s : State) :
    s.applyAll (e :: es) = (s.apply e).applyAll es := rfl

@[simp] theorem System.applyAll_nil {n : Nat} (sys : System n) : sys.applyAll [] = sys := rfl

@[simp] theorem System.applyAll_cons {n : Nat} (e : Fin n × HostEvent) (es : List (Fin n × HostEvent)) (sys : System n) :
    sys.applyAll (e :: es) = (sys.applyAt e.1 e.2).applyAll es := rfl

/-- The effect of R55: an event moves the state it is sent to as that state alone would move. -/
theorem System.insts_applyAt_self {n : Nat} (i : Fin n) (e : HostEvent) (sys : System n) :
    (sys.applyAt i e).insts[i] = sys.insts[i].apply e :=
  Vector.getElem_set_self i.isLt

/-- The frame of R55: an event leaves every state it is not sent to. -/
theorem System.insts_applyAt_ne {n : Nat} {i j : Fin n} (hij : i ≠ j) (e : HostEvent) (sys : System n) :
    (sys.applyAt i e).insts[j] = sys.insts[j] :=
  Vector.getElem_set_ne i.isLt j.isLt (Fin.val_ne_of_ne hij)

/-- The events of an interleaving that are sent to port `j`, in issue order (R188). -/
def eventsOf {n : Nat} (j : Fin n) (es : List (Fin n × HostEvent)) : List HostEvent :=
  (es.filter (fun e => e.1 = j)).map (fun e => e.2)

@[simp] theorem eventsOf_nil {n : Nat} (j : Fin n) : eventsOf j [] = [] := rfl

@[simp] theorem eventsOf_cons_self {n : Nat} (j : Fin n) (e : HostEvent) (es : List (Fin n × HostEvent)) :
    eventsOf j ((j, e) :: es) = e :: eventsOf j es := by
  simp [eventsOf]

theorem eventsOf_cons_ne {n : Nat} {i j : Fin n} (hij : i ≠ j) (e : HostEvent) (es : List (Fin n × HostEvent)) :
    eventsOf j ((i, e) :: es) = eventsOf j es := by
  simp [eventsOf, hij]

/-- Running an interleaving and looking at one of the instances commute. The induction is over the events, for every
system: each event is either sent to `j` (`insts_applyAt_self`) or leaves `j` alone (`insts_applyAt_ne`). -/
theorem System.insts_applyAll {n : Nat} (j : Fin n) (es : List (Fin n × HostEvent)) (sys : System n) :
    (sys.applyAll es).insts[j] = sys.insts[j].applyAll (eventsOf j es) := by
  induction es generalizing sys with
  | nil => rw [System.applyAll_nil, eventsOf_nil, State.applyAll_nil]
  | cons head es ih =>
    obtain ⟨i, e⟩ := head
    rw [System.applyAll_cons, ih]
    by_cases hij : i = j
    · subst hij
      rw [System.insts_applyAt_self, eventsOf_cons_self, State.applyAll_cons]
    · rw [System.insts_applyAt_ne hij, eventsOf_cons_ne hij]

/-- Settles O50, by induction on the interleaving. -/
theorem instancesNeverInterfere : Obligations.InstancesNeverInterfere :=
  fun _ es sys j => System.insts_applyAll j es sys

end Sys2Proof.Machine
end

section
/-! PROOFS. The decoder form by form and against the encoder (spec/30_encoding.md R60, R63, R64, R69): what a packed word
decodes to, and the two round trips that serve every statement about words. -/

namespace Sys2Proof

/-- R64, R65: the meaning of a code as R69 lists it. -/
theorem decodeCommand_eq_ite (d : Byte) :
    decodeCommand d =
      if d = 0x00 then .nop else if d = 0x01 then .decode else if d = 0x02 then .encode
      else if d = 0x03 then .check else .cmdReserved d := by
  rcases decodeCommand_cases d with ⟨rfl, h⟩ | ⟨rfl, h⟩ | ⟨rfl, h⟩ | ⟨rfl, h⟩ | ⟨hd, h⟩
  · exact h
  · exact h
  · exact h
  · exact h
  · have hne : ∀ c : Byte, c.toNat < 4 → d ≠ c := by
      rintro c hc rfl
      omega
    rw [h, if_neg (hne 0x00 (by decide)), if_neg (hne 0x01 (by decide)), if_neg (hne 0x02 (by decide)),
      if_neg (hne 0x03 (by decide))]

theorem decodeCommand_of_reserved {d : Byte} (hd : 4 ≤ d.toNat) : decodeCommand d = .cmdReserved d := by
  rcases decodeCommand_cases d with ⟨rfl, -⟩ | ⟨rfl, -⟩ | ⟨rfl, -⟩ | ⟨rfl, -⟩ | ⟨-, h⟩
  · exact absurd hd (by decide)
  · exact absurd hd (by decide)
  · exact absurd hd (by decide)
  · exact absurd hd (by decide)
  · exact h

/-- A read word is told by `RW` and `ADDR` alone (R63). -/
@[simp] theorem decodeWord_packWord_read (reg : Reg) (data : Byte) : decodeWord (packWord 0 reg data) = .rd reg := by
  simp [decodeWord]

@[simp] theorem decodeWord_packWord_cmd (data : Byte) : decodeWord (packWord 1 .cmd data) = decodeCommand data := by
  simp [decodeWord]

/-- Decoding undoes encoding. Each write names its address; a command is decided by its code. -/
theorem decodeWord_encode {i : Instr} (hi : i.wf = true) : decodeWord (encode i) = i := by
  cases i with
  | rd reg => exact decodeWord_packWord_read reg 0
  | wrAcb0 data | wrAcb1 data | wrAcb2 data | wrRsvd3 data | wrMatLo data | wrMatHi data | wrStatus data =>
    simp [encode, writeTxn, decodeWord]
  | nop => exact decodeWord_packWord_cmd 0x00
  | decode => exact decodeWord_packWord_cmd 0x01
  | encode => exact decodeWord_packWord_cmd 0x02
  | check => exact decodeWord_packWord_cmd 0x03
  | cmdReserved code =>
    exact (decodeWord_packWord_cmd code).trans (decodeCommand_of_reserved (of_decide_eq_true hi))

theorem encode_decodeCommand (d : Byte) : encode (decodeCommand d) = writeTxn .cmd d := by
  rcases decodeCommand_cases d with ⟨rfl, h⟩ | ⟨rfl, h⟩ | ⟨rfl, h⟩ | ⟨rfl, h⟩ | ⟨-, h⟩ <;> rw [h] <;> rfl

/-- Encoding undoes decoding on a read word whose ignored `DATA` is 0 (R63). -/
theorem encode_decodeWord_readTxn (reg : Reg) : encode (decodeWord (readTxn reg)) = readTxn reg :=
  congrArg encode (decodeWord_packWord_read reg 0)

/-- Encoding undoes decoding on every write word: a write keeps all twelve bits. -/
theorem encode_decodeWord_writeTxn (reg : Reg) (data : Byte) :
    encode (decodeWord (writeTxn reg data)) = writeTxn reg data := by
  cases reg with
  | acb0 => exact congrArg encode (decodeWord_encode (i := .wrAcb0 data) rfl)
  | acb1 => exact congrArg encode (decodeWord_encode (i := .wrAcb1 data) rfl)
  | acb2 => exact congrArg encode (decodeWord_encode (i := .wrAcb2 data) rfl)
  | rsvd3 => exact congrArg encode (decodeWord_encode (i := .wrRsvd3 data) rfl)
  | matLo => exact congrArg encode (decodeWord_encode (i := .wrMatLo data) rfl)
  | matHi => exact congrArg encode (decodeWord_encode (i := .wrMatHi data) rfl)
  | status => exact congrArg encode (decodeWord_encode (i := .wrStatus data) rfl)
  | cmd => exact (congrArg encode (decodeWord_packWord_cmd data)).trans (encode_decodeCommand data)

/-- The seven writes beside CMD are words of the encoder, so `decodeWord_encode` reads them back. -/
theorem decodeWord_packWord_write (d : Byte) :
    decodeWord (packWord 1 .acb0 d) = .wrAcb0 d ∧ decodeWord (packWord 1 .acb1 d) = .wrAcb1 d ∧
    decodeWord (packWord 1 .acb2 d) = .wrAcb2 d ∧ decodeWord (packWord 1 .rsvd3 d) = .wrRsvd3 d ∧
    decodeWord (packWord 1 .matLo d) = .wrMatLo d ∧ decodeWord (packWord 1 .matHi d) = .wrMatHi d ∧
    decodeWord (packWord 1 .status d) = .wrStatus d :=
  ⟨decodeWord_encode (i := .wrAcb0 d) rfl, decodeWord_encode (i := .wrAcb1 d) rfl,
    decodeWord_encode (i := .wrAcb2 d) rfl, decodeWord_encode (i := .wrRsvd3 d) rfl,
    decodeWord_encode (i := .wrMatLo d) rfl, decodeWord_encode (i := .wrMatHi d) rfl,
    decodeWord_encode (i := .wrStatus d) rfl⟩

/-- Settles O4: reads, writes and commands from the lemma for their form, and every word is its own three fields. -/
theorem decoderIsTotalOnAllWords : Obligations.DecoderIsTotalOnAllWords := by
  refine ⟨decodeWord_packWord_read, fun d => ?_, fun w => ⟨_, _, _, (packWord_fields w).symm⟩,
    rfl, rfl, rfl, rfl, rfl, rfl, rfl, rfl⟩
  obtain ⟨h0, h1, h2, h3, h4, h5, h6⟩ := decodeWord_packWord_write d
  exact ⟨h0, h1, h2, h3, h4, h5, h6, (decodeWord_packWord_cmd d).trans (decodeCommand_eq_ite d)⟩

end Sys2Proof
end

section
/-! PROOFS. The two byte layouts of the state, bit by bit: STATUS (spec/30_encoding.md R68) and the encoded field
(R66, R86). -/

namespace Sys2Proof.Machine

/-- R68 for every bit at once. Above bit 5 the bit is past the width of VIOL, which is how bits 7:6 come out 0. -/
theorem getLsbD_toByte (st : Status) (i : Nat) :
    st.toByte.getLsbD i =
      if i < 1 then st.valid else if i < 3 then st.err.code.getLsbD (i - 1) else st.viol.getLsbD (i - 3) := by
  have hbits : st.toByte.getLsbD i =
      if i < 1 then (BitVec.ofBool st.valid).getLsbD i
      else ((0 : BitVec 2) ++ st.viol ++ st.err.code).getLsbD (i - 1) := BitVec.getLsbD_append
  rw [hbits, BitVec.getLsbD_append, BitVec.getLsbD_append]
  by_cases h1 : i < 1
  · simp [show i = 0 by omega]
  · by_cases h3 : i < 3
    · simp [h1, h3, show i - 1 < 2 by omega]
    · by_cases h6 : i < 6
      · simp [h1, h3, show ¬ i - 1 < 2 by omega, show i - 1 - 2 = i - 3 by omega, show i - 3 < 3 by omega]
      · have hpast : st.viol.getLsbD (i - 3) = false := BitVec.getLsbD_of_ge _ _ (by omega)
        simp [h1, h3, show ¬ i - 1 < 2 by omega, show i - 1 - 2 = i - 3 by omega, show ¬ i - 3 < 3 by omega, hpast]

/-- Settles O28, reading each field off `getLsbD_toByte`. -/
theorem statusByteLayout : Obligations.StatusByteLayout := by
  intro st
  refine ⟨?valid, fun j hj => ?err, fun j hj => ?viol, ?bit6, ?bit7, ?code⟩
  case valid => exact getLsbD_toByte st 0
  case err => simp [getLsbD_toByte, show 1 + j < 3 by omega]
  case viol => simp [getLsbD_toByte, show ¬ 3 + j < 1 by omega]
  case bit6 => exact (getLsbD_toByte st 6).trans (BitVec.getLsbD_of_ge _ _ (by decide))
  case bit7 => exact (getLsbD_toByte st 7).trans (BitVec.getLsbD_of_ge _ _ (by decide))
  case code => cases st.err <;> rfl

theorem getLsbD_joinNibbles_low (h l : Nibble) {k : Nat} (hk : k < 4) :
    (joinNibbles h l).getLsbD k = l.getLsbD k := by
  rw [getLsbD_joinNibbles, if_pos hk]

theorem getLsbD_joinNibbles_high (h l : Nibble) (k : Nat) : (joinNibbles h l).getLsbD (4 + k) = h.getLsbD k := by
  rw [getLsbD_joinNibbles, if_neg (by omega), Nat.add_sub_cancel_left]

/-- Bit `k` of a plane is the plane's cell of block `k` (R22). -/
theorem getLsbD_planes (m : Mat) {k : Nat} (hk : k < 4) :
    (planeC1 m).getLsbD k = cell m 0 k ∧ (planeC2 m).getLsbD k = cell m 1 k ∧ (planeC3 m).getLsbD k = cell m 2 k := by
  rw [getLsbD_planeC1, getLsbD_planeC2, getLsbD_planeC3]
  simp [cell, hk]

/-- Settles O38: a bit of a byte is a bit of one of its nibbles, which is a plane or the complement of one. -/
theorem encodingFollowsFieldLayout : Obligations.EncodingFollowsFieldLayout := by
  intro m k hk
  obtain ⟨h1, h2, h3⟩ := getLsbD_planes m hk
  simp only [encodeMat, getLsbD_joinNibbles_low _ _ hk, getLsbD_joinNibbles_high, BitVec.getLsbD_not, hk,
    decide_true, Bool.true_and, h1, h2, h3, and_self]

end Sys2Proof.Machine
end

section
/-! PROOFS. The words of the host assembler's lines (spec/30_encoding.md R71, R72). -/

namespace Sys2Proof.Machine

/-- Every word of a line is one the assembler writes for an `rd` or a `wr` line (R72: the pseudo-instructions expand to
those). -/
theorem words_are_reads_or_writes (l : AsmLine) :
    ∀ w ∈ l.words, (∃ reg, w = readTxn reg) ∨ (∃ reg data, w = writeTxn reg data) := by
  cases l <;> simp [AsmLine.words]

theorem encode_decodeWord_of_mem_words {l : AsmLine} {w : TxnWord} (hw : w ∈ l.words) : encode (decodeWord w) = w := by
  rcases words_are_reads_or_writes l w hw with ⟨reg, rfl⟩ | ⟨reg, data, rfl⟩
  · exact encode_decodeWord_readTxn reg
  · exact encode_decodeWord_writeTxn reg data

/-- R72: the `zext_8` of `ldmat` puts the C3 plane under the four zeros of the word `0xD0.`. -/
theorem writeTxn_matHi_setWidth (c3 : Nibble) : writeTxn .matHi (c3.setWidth 8) = (0xD0 : Byte) ++ c3 := by
  revert c3
  decide

/-- Settles O52: with the address of its register written in, each word is the one of R72. -/
theorem assemblerExpansions : Obligations.AssemblerExpansions :=
  ⟨fun _ => rfl, fun _ _ => rfl, rfl, rfl, rfl, rfl, fun _ => rfl, fun _ => rfl,
    fun m => congrArg (fun w => [writeTxn .matLo (m.extractLsb' 0 8), w]) (writeTxn_matHi_setWidth _),
    rfl, rfl, rfl, fun _ _ => encode_decodeWord_of_mem_words⟩

end Sys2Proof.Machine
end

section
/-! PROOFS. The codec core read off its nibbles (spec/40_codec_core.md R80 to R85): what a check compares, what the
violations report, which cells the extraction gives, and the two outcomes of `Decode`. -/

namespace Sys2Proof.Machine

/-- One nibble is the complement of another exactly when each of its bits is: the comparison each check makes. -/
theorem nibble_eq_not_iff (a b : Nibble) : a = ~~~b ↔ ∀ k < 4, a.getLsbD k = !b.getLsbD k := by
  constructor
  · rintro rfl k hk
    simp [hk]
  · intro h
    apply BitVec.eq_of_getLsbD_eq
    intro k hk
    rw [h k hk, BitVec.getLsbD_not, decide_eq_true hk, Bool.true_and]

theorem getLsbD_hiNibble_of_lt (b : Byte) {k : Nat} (hk : k < 4) : (hiNibble b).getLsbD k = b.getLsbD (4 + k) := by
  rw [getLsbD_hiNibble, decide_eq_true hk, Bool.true_and]

theorem getLsbD_loNibble_of_lt (b : Byte) {k : Nat} (hk : k < 4) : (loNibble b).getLsbD k = b.getLsbD k := by
  rw [getLsbD_loNibble, decide_eq_true hk, Bool.true_and]

/-- Settles O34: a check is an equality of nibbles, compared bit by bit, and a bit of a nibble is a bit of its byte. -/
theorem checksCompareCopiesBitByBit : Obligations.ChecksCompareCopiesBitByBit := by
  intro b0 b1 b2
  rw [checkC1_iff, checkC2_iff, checkC3_iff]
  simp +contextual only [nibble_eq_not_iff, getLsbD_hiNibble_of_lt, getLsbD_loNibble_of_lt, and_self]

/-- A field is valid when no violation is reported (R83). -/
theorem valid_iff_violations_eq_zero (t : Triple) : t.Valid ↔ violations t = 0 := by
  simp [Triple.Valid, validate]

/-- Settles O35: the bits of `viol` one by one, and validity as the absence of all three. -/
theorem validateReportsEveryCheck : Obligations.ValidateReportsEveryCheck := by
  intro f
  obtain ⟨hbit0, hbit1, hbit2⟩ := violations_bits f
  exact ⟨hbit0, hbit1, hbit2, (valid_iff_violations_eq_zero f).trans (violations_eq_zero_iff f)⟩

/-- The cells of the extracted matrix are bits of the true copies (R84). -/
theorem cell_extract (t : Triple) {k : Nat} (hk : k < 4) :
    cell (extract t) 0 k = t.b1.getLsbD (4 + k) ∧ cell (extract t) 1 k = t.b2.getLsbD k ∧
    cell (extract t) 2 k = t.b2.getLsbD (4 + k) := by
  obtain ⟨h1, h2, h3⟩ := getLsbD_planes (extract t) hk
  rw [← h1, ← h2, ← h3]
  simp only [extract, planeC1_packPlanes, planeC2_packPlanes, planeC3_packPlanes, getLsbD_hiNibble_of_lt _ hk,
    getLsbD_loNibble_of_lt _ hk, and_self]

/-- The source's way to read one bit of a byte, `(b >> i) & 1`. -/
theorem setWidth_ofBool_getLsbD (b : Byte) (i : Nat) :
    (BitVec.ofBool (b.getLsbD i)).setWidth 8 = (b >>> i) &&& 1 := by
  have hbit : (b >>> i).getLsbD 0 = b.getLsbD i := by rw [BitVec.getLsbD_ushiftRight, Nat.add_zero]
  rw [← hbit]
  exact BitVec.and_one_eq_setWidth_ofBool_getLsbD.symm

/-- Settles O36: the cell is the bit that the source's formula shifts down and masks. -/
theorem extractionFollowsSourceFormulas : Obligations.ExtractionFollowsSourceFormulas := by
  refine fun f => ⟨fun k hk => ?_, fun _ => rfl⟩
  obtain ⟨hc1, hc2, hc3⟩ := cell_extract f hk
  rw [hc1, hc2, hc3]
  exact ⟨setWidth_ofBool_getLsbD _ _, setWidth_ofBool_getLsbD _ _, setWidth_ofBool_getLsbD _ _⟩

/-- Settles O37: `Decode` has two outcomes, told apart by the violations, which are none exactly on a valid field. -/
theorem decodeFailsExactlyOnViolation : Obligations.DecodeFailsExactlyOnViolation := by
  intro f
  rw [valid_iff_violations_eq_zero]
  rcases decodeTriple_cases f with ⟨hnone, hok⟩ | ⟨hsome, herr⟩
  · exact ⟨fun _ => hok, fun hne => absurd hnone hne⟩
  · exact ⟨fun hnone => absurd hnone hsome, fun _ => ⟨herr, hsome⟩⟩

end Sys2Proof.Machine
end

section
/-! PROOFS. The bus transactions (spec/41_bus_transactions.md R110 to R118): what a read returns, which cells a matrix
write stores and keeps, and that a write of CMD is the command of its code. -/

namespace Sys2Proof.Machine

/-- R115 cell by cell: the byte is the C1 and C2 planes, and C3 stays. -/
theorem cell_writeMatLo (d : Byte) (b : Block) {k : Nat} (hk : k < 4) :
    cell (b.writeMatLo d).mat 0 k = d.getLsbD k ∧ cell (b.writeMatLo d).mat 1 k = d.getLsbD (4 + k) ∧
    cell (b.writeMatLo d).mat 2 k = cell b.mat 2 k := by
  simp only [cell, getLsbD_writeMatLo, BitVec.getLsbD_extractLsb']
  refine ⟨?c1, ?c2, ?c3⟩
  case c1 => simp [show k < 8 by omega]
  case c2 => simp [show 4 + k < 8 by omega]
  case c3 => simp [hk]

/-- R116 cell by cell: C1 and C2 stay, and the low nibble of the byte is the C3 plane. -/
theorem cell_writeMatHi (d : Byte) (b : Block) {k : Nat} (hk : k < 4) :
    cell (b.writeMatHi d).mat 0 k = cell b.mat 0 k ∧ cell (b.writeMatHi d).mat 1 k = cell b.mat 1 k ∧
    cell (b.writeMatHi d).mat 2 k = d.getLsbD k := by
  simp only [cell, getLsbD_writeMatHi, BitVec.getLsbD_extractLsb']
  refine ⟨?c1, ?c2, ?c3⟩
  case c1 => simp [show k < 8 by omega]
  case c2 => simp [show 4 + k < 8 by omega]
  case c3 => simp [hk]

/-- Settles O14: the matrix each write stores is that of its block operation, whose cells are known. -/
theorem matrixWritesStorePlanes : Obligations.MatrixWritesStorePlanes := fun d s =>
  ⟨decodeWord_encode (i := .wrMatLo d) rfl, decodeWord_encode (i := .wrMatHi d) rfl,
    ⟨(s.block.writeMatLo d).mat, rfl, fun _ hk => cell_writeMatLo d s.block hk⟩,
    ⟨(s.block.writeMatHi d).mat, rfl, fun _ hk => cell_writeMatHi d s.block hk⟩⟩

theorem execute_of_reserved {d : Byte} (hd : 4 ≤ d.toNat) (b : Block) : b.execute d = b.runReserved := by
  rcases execute_cases d b with ⟨rfl, -⟩ | ⟨rfl, -⟩ | ⟨rfl, -⟩ | ⟨rfl, -⟩ | ⟨-, h⟩
  · exact absurd hd (by decide)
  · exact absurd hd (by decide)
  · exact absurd hd (by decide)
  · exact absurd hd (by decide)
  · exact h

/-- R118, R130: the instruction that the decoder reads from a code does what `Execute` of the code does. -/
theorem exec_decodeCommand (d : Byte) (s : State) : exec (decodeCommand d) s = .next (s.onBlock (Block.execute d)) := by
  rcases decodeCommand_cases d with ⟨rfl, -⟩ | ⟨rfl, -⟩ | ⟨rfl, -⟩ | ⟨rfl, -⟩ | ⟨hd, h⟩
  · rfl
  · rfl
  · rfl
  · rfl
  · rw [h, funext (execute_of_reserved hd)]
    rfl

/-- Settles O19: a write of CMD decodes to the command of its code, and CMD reads 0 in every block. -/
theorem commandWriteExecutesItsCode : Obligations.CommandWriteExecutesItsCode := by
  refine ⟨fun d s => ⟨s.onBlock (Block.execute d), ?_, rfl, rfl⟩,
    fun b => ⟨rfl, rfl, rfl, rfl, fun _ hd => execute_of_reserved hd b⟩⟩
  rw [decodeWord_packWord_cmd]
  exact exec_decodeCommand d s

/-- R110: a read appends the byte of its location to those read before. -/
theorem exec_rd_of_memRead {reg : Reg} {s : State} {x : Byte} (h : s.block.memRead reg = x) :
    exec (.rd reg) s = .next { s with reads := s.reads ++ [x] } := by
  subst h
  rfl

/-- R50: the high nibble of MAT_HI reads 0. -/
theorem memRead_matHi (b : Block) : b.memRead .matHi = (0 : Nibble) ++ b.mat.extractLsb' 8 4 :=
  BitVec.setWidth_eq_append (by decide)

/-- Settles O11: the byte of each location, from the register map. -/
theorem readReturnsRegisterByte : Obligations.ReadReturnsRegisterByte :=
  ⟨decodeWord_packWord_read, fun s =>
    ⟨exec_rd_of_memRead rfl, exec_rd_of_memRead rfl, exec_rd_of_memRead rfl, exec_rd_of_memRead rfl,
      exec_rd_of_memRead rfl, exec_rd_of_memRead (memRead_matHi s.block), exec_rd_of_memRead rfl,
      exec_rd_of_memRead rfl⟩⟩

/-- Settles O12: the words are those of the encoder, and the effect is the definition of the write. -/
theorem accessByteWritesStoreTheByte : Obligations.AccessByteWritesStoreTheByte := fun d _ =>
  ⟨decodeWord_encode (i := .wrAcb0 d) rfl, decodeWord_encode (i := .wrAcb1 d) rfl,
    decodeWord_encode (i := .wrAcb2 d) rfl, rfl, rfl, rfl⟩

/-- Settles O13: the words are those of the encoder, and all three leave the state by definition. -/
theorem ignoredWritesAndNopChangeNothing : Obligations.IgnoredWritesAndNopChangeNothing := fun d _ =>
  ⟨decodeWord_encode (i := .wrRsvd3 d) rfl, decodeWord_encode (i := .wrStatus d) rfl,
    decodeWord_encode (i := .nop) rfl, rfl, rfl, rfl⟩

end Sys2Proof.Machine
end

section
/-! PROOFS. The commands (spec/42_commands.md R132 to R135): DECODE and CHECK on a valid and on a failing field, the
field ENCODE leaves, and the reserved codes. -/

namespace Sys2Proof.Machine

/-- No violation is reported exactly when the three pairs of nibbles of ACB are complements (R80 to R83). -/
theorem violations_triple_eq_zero_iff (b : Block) :
    violations b.triple = 0 ↔ hiNibble b.acb1 = ~~~loNibble b.acb0 ∧ loNibble b.acb2 = ~~~hiNibble b.acb0 ∧
      hiNibble b.acb2 = ~~~loNibble b.acb1 := by
  rw [violations_eq_zero_iff, checkC1_iff, checkC2_iff, checkC3_iff]
  rfl

/-- Each bit of `viol` is set exactly when its pair of nibbles of ACB differs from complements (R26, R83). -/
theorem violations_triple_bits (b : Block) :
    ((violations b.triple).getLsbD 0 = true ↔ ¬hiNibble b.acb1 = ~~~loNibble b.acb0) ∧
    ((violations b.triple).getLsbD 1 = true ↔ ¬loNibble b.acb2 = ~~~hiNibble b.acb0) ∧
    ((violations b.triple).getLsbD 2 = true ↔ ¬hiNibble b.acb2 = ~~~loNibble b.acb1) := by
  obtain ⟨h0, h1, h2⟩ := violations_bits b.triple
  rw [h0, h1, h2, Bool.not_eq_true', Bool.not_eq_true', Bool.not_eq_true', ← Bool.not_eq_true, ← Bool.not_eq_true,
    ← Bool.not_eq_true, checkC1_iff, checkC2_iff, checkC3_iff]
  exact ⟨.rfl, .rfl, .rfl⟩

theorem runDecode_of_valid {b : Block} (h : violations b.triple = 0) :
    b.runDecode = { b with mat := extract b.triple, status := Status.success } := by
  rcases runDecode_cases b with ⟨-, hok⟩ | ⟨hne, -⟩
  · exact hok
  · exact absurd h hne

theorem runDecode_of_violation {b : Block} (h : violations b.triple ≠ 0) :
    b.runDecode = b.raise (.redundancyViolation (violations b.triple)) := by
  rcases runDecode_cases b with ⟨hz, -⟩ | ⟨-, herr⟩
  · exact absurd hz h
  · exact herr

theorem runCheck_of_valid {b : Block} (h : violations b.triple = 0) : b.runCheck = b.succeed := by
  rcases runCheck_cases b with ⟨-, hok⟩ | ⟨hne, -⟩
  · exact hok
  · exact absurd h hne

theorem runCheck_of_violation {b : Block} (h : violations b.triple ≠ 0) :
    b.runCheck = b.raise (.redundancyViolation (violations b.triple)) := by
  rcases runCheck_cases b with ⟨hz, -⟩ | ⟨-, herr⟩
  · exact absurd hz h
  · exact herr

/-- CHECK and DECODE leave the same STATUS (R134). -/
theorem status_runCheck_eq_status_runDecode (b : Block) : b.runCheck.status = b.runDecode.status := by
  by_cases h : violations b.triple = 0
  · rw [runCheck_of_valid h, runDecode_of_valid h, succeed_status]
  · rw [runCheck_of_violation h, runDecode_of_violation h]

/-- Every encoded field is valid (R89). -/
theorem violations_encodeMat (m : Mat) : violations (encodeMat m) = 0 := by
  rw [violations_eq_zero_iff, checkC1_iff, checkC2_iff, checkC3_iff]
  simp [encodeMat]

/-- The CHECK of a field just encoded records the success that ENCODE has already recorded. -/
theorem runCheck_runEncode (b : Block) : b.runEncode.runCheck = b.runEncode :=
  runCheck_of_valid (b := b.runEncode) (violations_encodeMat b.mat)

theorem exec_decode_of_runDecode {s : State} {b : Block} (h : s.block.runDecode = b) :
    exec .decode s = .next { s with block := b } := by
  subst h
  rfl

theorem exec_check_of_runCheck {s : State} {b : Block} (h : s.block.runCheck = b) :
    exec .check s = .next { s with block := b } := by
  subst h
  rfl

/-- Settles O15: DECODE has one outcome on a field without violations and one on any other. -/
theorem decodeCommandExtractsOrRecordsViolation : Obligations.DecodeCommandExtractsOrRecordsViolation := by
  refine ⟨decodeWord_encode (i := .decode) rfl, fun s => ?_⟩
  intro c1 c2 c3
  refine ⟨fun hchecks => ?valid, fun hfail => ?violation⟩
  case valid =>
    have h := runDecode_of_valid ((violations_triple_eq_zero_iff s.block).mpr hchecks)
    exact ⟨extract s.block.triple, exec_decode_of_runDecode h, fun _ hk => cell_extract _ hk⟩
  case violation =>
    have h := runDecode_of_violation (mt (violations_triple_eq_zero_iff s.block).mp hfail)
    exact ⟨violations s.block.triple, exec_decode_of_runDecode h,
      violations_triple_bits s.block⟩

/-- Settles O16: the bytes ENCODE writes are those of the codec, bit by bit, and their CHECK finds nothing to change. -/
theorem encodeCommandPacksMatrix : Obligations.EncodeCommandPacksMatrix :=
  ⟨decodeWord_encode (i := .encode) rfl, fun s =>
    ⟨s.onBlock Block.runEncode, rfl, rfl, encodingFollowsFieldLayout s.block.mat,
      exec_check_of_runCheck (s := s.onBlock Block.runEncode) (runCheck_runEncode s.block)⟩⟩

/-- Settles O17: CHECK has one outcome on a field without violations and one on any other, with the STATUS of DECODE. -/
theorem checkCommandReportsValidity : Obligations.CheckCommandReportsValidity := by
  refine ⟨decodeWord_encode (i := .check) rfl, fun s => ?_⟩
  intro c1 c2 c3
  refine ⟨fun hchecks => ?valid, fun hfail => ?violation, ?sameStatus⟩
  case valid =>
    have h := runCheck_of_valid ((violations_triple_eq_zero_iff s.block).mpr hchecks)
    exact exec_check_of_runCheck h
  case violation =>
    have h := runCheck_of_violation (mt (violations_triple_eq_zero_iff s.block).mp hfail)
    exact ⟨violations s.block.triple, exec_check_of_runCheck h,
      violations_triple_bits s.block⟩
  case sameStatus => exact ⟨_, _, rfl, rfl, status_runCheck_eq_status_runDecode s.block⟩

/-- Settles O18: the decoder gives every code from 4 on to the reserved command, whose effect is its definition. -/
theorem reservedCodeRecordsIllegalCommand : Obligations.ReservedCodeRecordsIllegalCommand := fun d _ hd =>
  ⟨(decodeWord_packWord_cmd d).trans (decodeCommand_of_reserved hd), rfl⟩

end Sys2Proof.Machine
end

section
/-! PROOFS. Host programs on the bus (spec/30_encoding.md R72, 70_reset_and_hazards.md R188): what a read word, a write
word and each line the adapters issue do to the machine. -/

namespace Sys2Proof.Machine

@[simp] theorem transact_readTxn (reg : Reg) (s : State) :
    s.transact (readTxn reg) = s.respond (s.block.memRead reg) := by
  simp [State.transact, readTxn]

@[simp] theorem transact_writeTxn (reg : Reg) (d : Byte) (s : State) :
    s.transact (writeTxn reg d) = s.onBlock (Block.memWrite reg d) := by
  simp [State.transact, writeTxn]

@[simp] theorem issue_nil (s : State) : s.issue [] = s := rfl

@[simp] theorem issue_cons (w : TxnWord) (ws : List TxnWord) (s : State) :
    s.issue (w :: ws) = (s.transact w).issue ws := rfl

@[simp] theorem issue_append (ws vs : List TxnWord) (s : State) : s.issue (ws ++ vs) = (s.issue ws).issue vs :=
  List.foldl_append

@[simp] theorem asmWords_nil : asmWords [] = [] := rfl

@[simp] theorem asmWords_cons (l : AsmLine) (ls : List AsmLine) : asmWords (l :: ls) = l.words ++ asmWords ls :=
  List.flatMap_cons

/-- The two matrix writes of R72 together store all twelve bits: MAT_LO the C1 and C2 planes, MAT_HI the C3 plane. -/
theorem writeMatHi_writeMatLo (m : Mat) (b : Block) :
    (b.writeMatLo (m.extractLsb' 0 8)).writeMatHi ((m.extractLsb' 8 4).setWidth 8) = { b with mat := m } := by
  have hmat : ((b.writeMatLo (m.extractLsb' 0 8)).writeMatHi ((m.extractLsb' 8 4).setWidth 8)).mat = m := by
    apply BitVec.eq_of_getLsbD_eq
    intro i hi
    rw [getLsbD_writeMatHi]
    by_cases h8 : i < 8
    · simp [h8, getLsbD_writeMatLo]
    · simp [h8, show i - 8 < 4 by omega, show i - 8 < 8 by omega, show 8 + (i - 8) = i by omega]
  exact congrArg (fun mat => { b with mat := mat }) hmat

@[simp] theorem issue_ldmat (m : Mat) (s : State) :
    s.issue (AsmLine.ldmat m).words = { s with block := { s.block with mat := m } } := by
  simp only [AsmLine.words, issue_cons, issue_nil, transact_writeTxn]
  exact congrArg (fun b => { s with block := b }) (writeMatHi_writeMatLo m s.block)

@[simp] theorem issue_ldacb (t : Triple) (s : State) :
    s.issue (AsmLine.ldacb t).words = s.onBlock (Block.setTriple t) := by
  simp only [AsmLine.words, issue_cons, issue_nil, transact_writeTxn]
  rfl

@[simp] theorem issue_encode (s : State) : s.issue AsmLine.encode.words = s.onBlock Block.runEncode :=
  transact_writeTxn .cmd 0x02 s

@[simp] theorem issue_decode (s : State) : s.issue AsmLine.decode.words = s.onBlock Block.runDecode :=
  transact_writeTxn .cmd 0x01 s

@[simp] theorem issue_rdst (s : State) : s.issue AsmLine.rdst.words = s.respond s.block.status.toByte :=
  transact_readTxn .status s

@[simp] theorem issue_rdacb (s : State) :
    s.issue AsmLine.rdacb.words = { s with reads := s.reads ++ [s.block.acb0, s.block.acb1, s.block.acb2] } := by
  simp [AsmLine.words, State.respond, Block.memRead]

@[simp] theorem issue_rdmat_block (s : State) : (s.issue AsmLine.rdmat.words).block = s.block := by
  simp [AsmLine.words]

end Sys2Proof.Machine
end

section
/-! PROOFS. The matrix of a software array and the array of a matrix (spec/60_exceptions.md R167, R168): the cells of a
packed array by induction on its rows, and the cells the adapter reads off a matrix. -/

namespace Sys2Proof.Machine

theorem wellShaped_iff (rows : List (List Nat)) :
    wellShaped rows = true ↔ rows.length = 3 ∧ ∀ row ∈ rows, row.length = 4 ∧ ∀ x ∈ row, x = 0 ∨ x = 1 := by
  simp [wellShaped]

theorem rowValue_cons (x : Nat) (xs : List Nat) : rowValue (x :: xs) = x + 2 * rowValue xs := rfl

theorem rowValue_lt {row : List Nat} (hbits : ∀ x ∈ row, x = 0 ∨ x = 1) : rowValue row < 2 ^ row.length := by
  induction row with
  | nil => exact Nat.one_pos
  | cons x xs ih =>
    obtain ⟨hx, hxs⟩ := List.forall_mem_cons.mp hbits
    have hlt := ih hxs
    rw [rowValue_cons, List.length_cons, Nat.pow_succ]
    omega

/-- Bit `k` of a row's number is its cell of block `k`. -/
theorem toNat_testBit_rowValue {row : List Nat} (hbits : ∀ x ∈ row, x = 0 ∨ x = 1) (k : Nat) :
    ((rowValue row).testBit k).toNat = row.getD k 0 := by
  induction row generalizing k with
  | nil => simp [rowValue]
  | cons x xs ih =>
    obtain ⟨hx, hxs⟩ := List.forall_mem_cons.mp hbits
    rw [rowValue_cons]
    cases k with
    | zero => rcases hx with rfl | rfl <;> simp
    | succ k =>
      rw [Nat.testBit_succ, show (x + 2 * rowValue xs) / 2 = rowValue xs by omega, List.getD_cons_succ, ih hxs]

/-- The number `packRows` takes twelve bits of: `Σ_c rowValue rows[c] << 4*c` (R167). -/
def rowsValue (rows : List (List Nat)) : Nat := rows.foldr (fun row acc => rowValue row + 16 * acc) 0

theorem packRows_eq (rows : List (List Nat)) : packRows rows = BitVec.ofNat 12 (rowsValue rows) := rfl

theorem rowsValue_cons (row : List Nat) (rows : List (List Nat)) :
    rowsValue (row :: rows) = rowValue row + 16 * rowsValue rows := rfl

/-- Rows that fit four bits do not run into each other: bit `4*c + k` is bit `k` of row `c`. -/
theorem testBit_rowsValue {rows : List (List Nat)} (hfit : ∀ row ∈ rows, rowValue row < 16) (c : Nat) {k : Nat}
    (hk : k < 4) : (rowsValue rows).testBit (4 * c + k) = (rowValue (rows.getD c [])).testBit k := by
  induction rows generalizing c with
  | nil => simp [rowsValue, rowValue]
  | cons row rows ih =>
    obtain ⟨hrow, hrows⟩ := List.forall_mem_cons.mp hfit
    rw [rowsValue_cons, Nat.add_comm, Nat.testBit_two_pow_mul_add (i := 4) _ hrow]
    cases c with
    | zero => simp [hk]
    | succ c =>
      rw [if_neg (by omega), show 4 * (c + 1) + k - 4 = 4 * c + k by omega, ih hrows, List.getD_cons_succ]

/-- The cells of a packed array are those of the array (R167). -/
theorem toNat_cell_packRows {rows : List (List Nat)} (h : wellShaped rows = true) {c k : Nat} (hc : c < 3) (hk : k < 4) :
    (cell (packRows rows) c k).toNat = (rows.getD c []).getD k 0 := by
  obtain ⟨hlen, hrows⟩ := (wellShaped_iff rows).mp h
  have hfit : ∀ row ∈ rows, rowValue row < 16 := fun row hrow => by
    obtain ⟨hfour, hbits⟩ := hrows row hrow
    have hlt := rowValue_lt hbits
    rwa [hfour] at hlt
  have hmem : rows.getD c [] ∈ rows := by
    rw [List.getD_eq_getElem _ _ (hlen ▸ hc)]
    exact List.getElem_mem _
  obtain ⟨-, hbits⟩ := hrows _ hmem
  calc (cell (packRows rows) c k).toNat
      = ((rowsValue rows).testBit (4 * c + k)).toNat := by
        rw [packRows_eq, cell, BitVec.getLsbD_ofNat, decide_eq_true (by omega), Bool.true_and]
    _ = ((rowValue (rows.getD c [])).testBit k).toNat := by rw [testBit_rowsValue hfit c hk]
    _ = (rows.getD c []).getD k 0 := toNat_testBit_rowValue hbits k

theorem length_matRows (m : Mat) : (matRows m).length = 3 := rfl

theorem getD_matRows (m : Mat) {c : Nat} (hc : c < 3) :
    (matRows m).getD c [] = [0, 1, 2, 3].map fun k => (cell m c k).toNat := by
  interval_cases c <;> rfl

/-- The cells of a matrix's array are those of the matrix (R168). -/
theorem getD_getD_matRows (m : Mat) {c k : Nat} (hc : c < 3) (hk : k < 4) :
    ((matRows m).getD c []).getD k 0 = (cell m c k).toNat := by
  rw [getD_matRows m hc]
  interval_cases k <;> rfl

end Sys2Proof.Machine
end

section
/-! PROOFS. The host adapters (spec/60_exceptions.md R167, R168): what each call returns, issues and leaves, once for each
way it can end. -/

namespace Sys2Proof.Machine

theorem encodeMatrix_of_not_wellShaped {rows : List (List Nat)} (h : ¬wellShaped rows = true) (s : State) :
    encodeMatrix rows s = { result := .err .shapeMismatch, issued := [], state := s } :=
  if_neg h

/-- ENCODE on the loaded matrix and the read back of its three bytes (R167). -/
theorem issue_ldmat_encode_rdacb (m : Mat) (s : State) :
    s.issue (asmWords [.ldmat m, .encode, .rdacb]) =
      { s with
        block := { s.block with mat := m }.runEncode
        reads := s.reads ++ [(encodeMat m).b0, (encodeMat m).b1, (encodeMat m).b2] } := by
  simp only [asmWords_cons, asmWords_nil, issue_append, issue_nil, issue_ldmat, issue_encode, issue_rdacb]
  rfl

theorem encodeMatrix_of_wellShaped {rows : List (List Nat)} (h : wellShaped rows = true) (s : State) :
    encodeMatrix rows s =
      { result := .ok (encodeMat (packRows rows))
        issued := asmWords [.ldmat (packRows rows), .encode, .rdacb]
        state := s.issue (asmWords [.ldmat (packRows rows), .encode, .rdacb]) } := by
  have htriple : (s.issue (asmWords [.ldmat (packRows rows), .encode, .rdacb])).block.triple =
      encodeMat (packRows rows) := by
    rw [issue_ldmat_encode_rdacb]
    rfl
  rw [← htriple]
  exact if_pos h

/-- Settles O47: the matrix is that of the packed rows, whose cells are known. -/
theorem encodeMatrixFollowsTheCodec : Obligations.EncodeMatrixFollowsTheCodec := by
  refine fun rows s => ⟨fun hshape => ?mismatch, fun hlen hrows => ?encoded⟩
  case mismatch => exact encodeMatrix_of_not_wellShaped (mt (wellShaped_iff rows).mp hshape) s
  case encoded =>
    have h := (wellShaped_iff rows).mpr ⟨hlen, hrows⟩
    rw [encodeMatrix_of_wellShaped h, issue_ldmat_encode_rdacb]
    exact ⟨packRows rows, fun c hc k hk => (toNat_cell_packRows h hc hk).symm, rfl, rfl, rfl, rfl⟩

/-- A source of no accepted length holds no field (R168). -/
theorem fieldOfSource_eq_none {src : List Byte} (h3 : src.length ≠ 3) (h4 : src.length ≠ 4) (h16 : src.length ≠ 16) :
    fieldOfSource src = none := by
  unfold fieldOfSource
  split
  · contradiction
  · contradiction
  · contradiction
  · rfl

/-- The field stands at the start of a short source and at byte 6 of a trailer (R168). -/
theorem fieldOfSource_eq_some {src : List Byte} {f : Triple}
    (h : ((src.length = 3 ∨ src.length = 4) ∧ f = ⟨src.getD 0 0, src.getD 1 0, src.getD 2 0⟩) ∨
      (src.length = 16 ∧ f = ⟨src.getD 6 0, src.getD 7 0, src.getD 8 0⟩)) : fieldOfSource src = some f := by
  rcases h with ⟨hlen | hlen, rfl⟩ | ⟨hlen, rfl⟩ <;> simp only [fieldOfSource, hlen]

theorem decodeBytes_of_no_field {src : List Byte} (h : fieldOfSource src = none) (s : State) :
    decodeBytes src s = { result := .err .inputLength, issued := [], state := s } := by
  simp only [decodeBytes, h]

/-- The program before the adapter looks at STATUS: DECODE of the loaded field, and a read that changes nothing. -/
theorem issue_ldacb_decode_rdst_block (f : Triple) (s : State) :
    (s.issue (asmWords [.ldacb f, .decode, .rdst])).block = (s.block.setTriple f).runDecode := by
  simp

theorem runDecode_setTriple_of_ok {f : Triple} {m : Mat} (h : decodeTriple f = .ok m) (b : Block) :
    (b.setTriple f).runDecode = ⟨f.b0, f.b1, f.b2, m, ⟨true, .none, 0⟩⟩ := by
  simp only [Block.runDecode, setTriple_triple, h]
  rfl

theorem runDecode_setTriple_of_violation {f : Triple} {v : Viol}
    (h : decodeTriple f = .err (.redundancyViolation v)) (b : Block) :
    (b.setTriple f).runDecode = ⟨f.b0, f.b1, f.b2, b.mat, ⟨false, .redundancyViolation, v⟩⟩ := by
  simp only [Block.runDecode, setTriple_triple, h]
  rfl

/-- VALID is set, so MAT is read (R166): the adapter returns the rows of the decoded matrix. -/
theorem decodeBytes_of_ok {src : List Byte} {f : Triple} {m : Mat} (hsrc : fieldOfSource src = some f)
    (h : decodeTriple f = .ok m) (s : State) :
    decodeBytes src s =
      { result := .ok (matRows m)
        issued := asmWords [.ldacb f, .decode, .rdst, .rdmat]
        state := s.issue (asmWords [.ldacb f, .decode, .rdst, .rdmat]) } := by
  have hblock := (issue_ldacb_decode_rdst_block f s).trans (runDecode_setTriple_of_ok h s.block)
  simp only [decodeBytes, hsrc, hblock, if_true, ← issue_append]
  rfl

/-- VALID is clear, so MAT is not read (R166): the adapter returns the violations that STATUS reports. -/
theorem decodeBytes_of_violation {src : List Byte} {f : Triple} {v : Viol} (hsrc : fieldOfSource src = some f)
    (h : decodeTriple f = .err (.redundancyViolation v)) (s : State) :
    decodeBytes src s =
      { result := .err (.redundancyViolation v)
        issued := asmWords [.ldacb f, .decode, .rdst]
        state := s.issue (asmWords [.ldacb f, .decode, .rdst]) } := by
  have hblock := (issue_ldacb_decode_rdst_block f s).trans (runDecode_setTriple_of_violation h s.block)
  simp only [decodeBytes, hsrc, hblock, Bool.false_eq_true, if_false]

/-- Settles O48: the source's length decides whether there is a field, and its checks decide how the call ends. -/
theorem decodeBytesFollowsTheCodec : Obligations.DecodeBytesFollowsTheCodec := by
  refine ⟨fun src s h3 h4 h16 => decodeBytes_of_no_field (fieldOfSource_eq_none h3 h4 h16) s, fun src s f hf => ?_⟩
  have hsrc := fieldOfSource_eq_some hf
  refine ⟨fun m hm => ?valid, fun v hv => ?violation⟩
  case valid =>
    rw [decodeBytes_of_ok hsrc hm]
    have hblock : (s.issue (asmWords [.ldacb f, .decode, .rdst, .rdmat])).block = (s.block.setTriple f).runDecode := by
      simp
    exact ⟨⟨matRows m, rfl, length_matRows m, fun c hc =>
      ⟨by rw [getD_matRows m hc]; rfl, fun _ hk => getD_getD_matRows m hc hk⟩⟩, rfl,
      hblock.trans (runDecode_setTriple_of_ok hm s.block)⟩
  case violation =>
    rw [decodeBytes_of_violation hsrc hv]
    exact ⟨rfl, rfl, (issue_ldacb_decode_rdst_block f s).trans (runDecode_setTriple_of_violation hv s.block)⟩

end Sys2Proof.Machine
end

section
/-! PROOFS. Words and transactions both ways (spec/30_encoding.md R60, R63, R69), and the opcode table searched from the
top against the decoder. -/

namespace Sys2Proof

/-- Settles O2, by the round trip of the encoder. -/
theorem encodedTransactionDecodesBack : Obligations.EncodedTransactionDecodesBack :=
  fun _ hi => decodeWord_encode hi

/-- A word is a read or a write of one of the eight registers (R60, R61). -/
theorem read_or_write_word (w : TxnWord) :
    (∃ reg data, w = packWord 0 reg data) ∨ (∃ reg data, w = writeTxn reg data) := by
  rcases BitVec.eq_zero_or_eq_one (rwField w) with hrw | hrw
  · exact .inl ⟨_, _, hrw ▸ (packWord_fields w).symm⟩
  · exact .inr ⟨_, _, hrw ▸ (packWord_fields w).symm⟩

theorem toNat_packWord (rw : BitVec 1) (reg : Reg) (data : Byte) :
    (packWord rw reg data).toNat = 2048 * rw.toNat + 256 * reg.addr.toNat + data.toNat := by
  have haddr := reg.addr.isLt
  have hdata := data.isLt
  have hfields : (packWord rw reg data).toNat = ((rw.toNat <<< 3 ||| reg.addr.toNat) <<< 8 ||| data.toNat) := by
    simp only [packWord, BitVec.toNat_append]
  rw [hfields, ← Nat.shiftLeft_add_eq_or_of_lt haddr, ← Nat.shiftLeft_add_eq_or_of_lt hdata, Nat.shiftLeft_eq,
    Nat.shiftLeft_eq]
  omega

theorem wf_decodeCommand (d : Byte) : (decodeCommand d).wf = true := by
  rcases decodeCommand_cases d with ⟨-, h⟩ | ⟨-, h⟩ | ⟨-, h⟩ | ⟨-, h⟩ | ⟨hd, h⟩
  · rw [h]; rfl
  · rw [h]; rfl
  · rw [h]; rfl
  · rw [h]; rfl
  · rw [h]; exact decide_eq_true hd

/-- Every word decodes to a well-formed transaction. -/
theorem wf_decodeWord (w : TxnWord) : (decodeWord w).wf = true := by
  unfold decodeWord
  split
  · rfl
  · split
    case h_8 => exact wf_decodeCommand _
    all_goals rfl

theorem decodeNat_of_lt {n : Nat} (hn : n < 4096) : decodeNat n = .ok (decodeWord (BitVec.ofNat 12 n)) := by
  simp only [decodeNat, readWord, if_pos hn, Except.map]

theorem decodeNat_of_ge {n : Nat} (hn : 4096 ≤ n) : decodeNat n = .error (.notATransactionWord n) := by
  simp only [decodeNat, readWord, if_neg (Nat.not_lt.mpr hn), Except.map]

/-- The word of the transaction a word decodes to: a write keeps all its bits, a read loses its `DATA` (R63). -/
theorem toNat_encode_decodeWord (w : TxnWord) :
    (2048 ≤ w.toNat → (encode (decodeWord w)).toNat = w.toNat) ∧
    (w.toNat < 2048 → (encode (decodeWord w)).toNat = w.toNat / 256 * 256) := by
  rcases read_or_write_word w with ⟨reg, data, rfl⟩ | ⟨reg, data, rfl⟩
  · have haddr := reg.addr.isLt
    have hdata := data.isLt
    have hword : (encode (decodeWord (packWord 0 reg data))).toNat = 256 * reg.addr.toNat := by
      rw [decodeWord_packWord_read, encode, readTxn, toNat_packWord]
      simp
    rw [hword, toNat_packWord, show (0 : BitVec 1).toNat = 0 from rfl]
    omega
  · refine ⟨fun _ => by rw [encode_decodeWord_writeTxn], fun hlt => ?_⟩
    rw [writeTxn, toNat_packWord, show (1 : BitVec 1).toNat = 1 from rfl] at hlt
    omega

/-- Settles O3: a number below 4096 is a word, which decodes to a transaction that encodes back. -/
theorem decodedWordEncodesBack : Obligations.DecodedWordEncodesBack := by
  refine ⟨fun n hn => decodeNat_of_ge hn, fun n hn => ⟨_, decodeNat_of_lt hn, wf_decodeWord _, ?_⟩⟩
  have hback := toNat_encode_decodeWord (BitVec.ofNat 12 n)
  rwa [BitVec.toNat_ofNat, Nat.mod_eq_of_lt hn] at hback

/-- The row of spec/opcode_table.json that a search from the top finds for a word. -/
def firstRow (w : TxnWord) : Option Mnemonic := (opcodeTable.find? (fun r => r.hits w)).map (fun r => r.name)

/-- A row whose mask ignores `DATA` hits a word whatever its `DATA` is. -/
theorem hits_packWord_of_mask {r : OpcodeRow} {m : BitVec (1 + 3)} (hmask : r.mask = m ++ (0 : Byte)) (rw : BitVec 1)
    (reg : Reg) (data : Byte) : r.hits (packWord rw reg data) = r.hits (packWord rw reg 0) := by
  have hmasked : ∀ d : Byte, packWord rw reg d &&& (m ++ (0 : Byte)) = ((rw ++ reg.addr) &&& m) ++ (0 : Byte) := by
    intro d
    exact (BitVec.and_append ..).trans (congrArg (_ ++ ·) BitVec.and_zero)
  simp only [OpcodeRow.hits, hmask, hmasked]

/-- A row that fixes all twelve bits hits its pattern only. -/
theorem hits_iff_of_full_mask {r : OpcodeRow} (hmask : r.mask = 0xFFF) (w : TxnWord) :
    r.hits w = true ↔ w = r.pattern := by
  have hones : w &&& 0xFFF = w := BitVec.and_allOnes
  rw [OpcodeRow.hits, hmask, hones, beq_iff_eq]

/-- The rows above the command rows: the reads, and the writes of a register other than CMD. -/
def registerRows : List OpcodeRow :=
  [.RD, .WR_ACB0, .WR_ACB1, .WR_ACB2, .WR_RSVD3, .WR_MAT_LO, .WR_MAT_HI, .WR_STATUS].map opcodeRow

/-- The rows of the four commands, which fix the code too. -/
def exactRows : List OpcodeRow := [.NOP, .DECODE, .ENCODE, .CHECK].map opcodeRow

/-- The search goes through the three parts of the table in turn. -/
theorem firstRow_eq (w : TxnWord) :
    firstRow w =
      (((registerRows.find? (fun r => r.hits w)).or (exactRows.find? (fun r => r.hits w))).or
        ([opcodeRow .CMD_RESERVED].find? (fun r => r.hits w))).map (fun r => r.name) := by
  rw [← List.find?_append, ← List.find?_append]
  rfl

/-- Among the rows above the command rows, `RW` and `ADDR` decide. -/
theorem find?_registerRows (rw : BitVec 1) (reg : Reg) (data : Byte) :
    registerRows.find? (fun r => r.hits (packWord rw reg data)) =
      registerRows.find? (fun r => r.hits (packWord rw reg 0)) := by
  have hmask : ∀ r ∈ registerRows, ∃ m : BitVec (1 + 3), r.mask = m ++ (0 : Byte) := by
    unfold registerRows
    decide
  refine List.find?_congr fun r hr => ?_
  obtain ⟨m, hm⟩ := hmask r hr
  exact hits_packWord_of_mask hm rw reg data

theorem firstRow_read (reg : Reg) (data : Byte) : firstRow (packWord 0 reg data) = some .RD := by
  rw [firstRow_eq, find?_registerRows]
  cases reg <;> rfl

/-- No exact command row hits a reserved code (R65). -/
theorem find?_exactRows_of_reserved {d : Byte} (hd : 4 ≤ d.toNat) :
    exactRows.find? (fun r => r.hits (writeTxn .cmd d)) = none := by
  have hcodes : ∀ r ∈ exactRows, r.mask = 0xFFF ∧ (dataField r.pattern).toNat < 4 := by decide
  refine List.find?_eq_none.mpr fun r hr hhit => ?_
  obtain ⟨hmask, hcode⟩ := hcodes r hr
  rw [← (hits_iff_of_full_mask hmask _).mp hhit, writeTxn, dataField_packWord] at hcode
  omega

/-- So the search comes to the CMD_RESERVED row. -/
theorem firstRow_of_reserved {d : Byte} (hd : 4 ≤ d.toNat) : firstRow (writeTxn .cmd d) = some .CMD_RESERVED := by
  have hregister : registerRows.find? (fun r => r.hits (writeTxn .cmd d)) = none :=
    (find?_registerRows 1 .cmd d).trans (by decide)
  have hlast : [opcodeRow .CMD_RESERVED].find? (fun r => r.hits (writeTxn .cmd d)) = some (opcodeRow .CMD_RESERVED) :=
    List.find?_cons_of_pos (Laws.TableRow.cmdReserved d)
  rw [firstRow_eq, hregister, find?_exactRows_of_reserved hd, hlast]
  rfl

/-- The word of a well-formed transaction is found in its own row. -/
theorem firstRow_encode {i : Instr} (hi : i.wf = true) : firstRow (encode i) = some i.row := by
  cases i with
  | rd reg => exact firstRow_read reg 0
  | wrAcb0 data | wrAcb1 data | wrAcb2 data | wrRsvd3 data | wrMatLo data | wrMatHi data | wrStatus data =>
    rw [firstRow_eq, encode, writeTxn, find?_registerRows]
    rfl
  | nop | decode | encode | check => rfl
  | cmdReserved code => exact firstRow_of_reserved (of_decide_eq_true hi)

/-- The search from the top and the decoder read the same row (R69): a write word is the word of its transaction, and a
read is in the RD row whatever its `DATA` is. -/
theorem firstRow_eq_row (w : TxnWord) : firstRow w = some (decodeWord w).row := by
  rcases read_or_write_word w with ⟨reg, data, rfl⟩ | ⟨reg, data, rfl⟩
  · rw [decodeWord_packWord_read]
    exact firstRow_read reg data
  · rw [← firstRow_encode (wf_decodeWord _), encode_decodeWord_writeTxn]

/-- Settles O5, for accepted numbers by `firstRow_eq_row` and for encoded transactions by `firstRow_encode`. -/
theorem decoderFollowsOpcodeTable : Obligations.DecoderFollowsOpcodeTable := by
  refine ⟨fun n i hi => ?_, fun i hi => firstRow_encode hi⟩
  by_cases hn : n < 4096
  · rw [decodeNat_of_lt hn] at hi
    cases hi
    exact firstRow_eq_row _
  · rw [decodeNat_of_ge (Nat.not_lt.mp hn)] at hi
    cases hi

/-- Settles O1: each of the closed words runs through the decoder. -/
theorem sampleWordsDecode : Obligations.SampleWordsDecode := by
  unfold Obligations.SampleWordsDecode
  decide

end Sys2Proof
end

section
/-! PROOFS. Execution against the register map (spec/20_memory.md R41), and runs of host events and of programs
(60_exceptions.md R150, 70_reset_and_hazards.md R180, R187, R188). -/

namespace Sys2Proof.Machine

theorem transact_packWord_read (reg : Reg) (data : Byte) (s : State) :
    s.transact (packWord 0 reg data) = s.respond (s.block.memRead reg) := by
  simp [State.transact]

/-- R111 to R118: a write word does to the block what the register map says of its location. -/
theorem exec_decodeWord_writeTxn (reg : Reg) (d : Byte) (s : State) :
    exec (decodeWord (writeTxn reg d)) s = .next (s.onBlock (Block.memWrite reg d)) := by
  obtain ⟨h0, h1, h2, h3, h4, h5, h6⟩ := decodeWord_packWord_write d
  cases reg with
  | acb0 => rw [writeTxn, h0]; rfl
  | acb1 => rw [writeTxn, h1]; rfl
  | acb2 => rw [writeTxn, h2]; rfl
  | rsvd3 => rw [writeTxn, h3]; rfl
  | matLo => rw [writeTxn, h4]; rfl
  | matHi => rw [writeTxn, h5]; rfl
  | status => rw [writeTxn, h6]; rfl
  | cmd =>
    rw [writeTxn, decodeWord_packWord_cmd]
    exact exec_decodeCommand d s

/-- Decoding and executing a word is the bus transaction of the word. -/
theorem exec_decodeWord (w : TxnWord) (s : State) : exec (decodeWord w) s = .next (s.transact w) := by
  rcases read_or_write_word w with ⟨reg, data, rfl⟩ | ⟨reg, data, rfl⟩
  · rw [decodeWord_packWord_read, transact_packWord_read]
    rfl
  · rw [exec_decodeWord_writeTxn, transact_writeTxn]

/-- Settles O8, by the lemma for read words and the one for write words. -/
theorem executionMatchesRegisterMap : Obligations.ExecutionMatchesRegisterMap := exec_decodeWord

/-- The state an executed word leaves is that of its bus transaction. -/
theorem eq_transact_of_exec {w : TxnWord} {i : Instr} {s t : State} (hw : decodeWord w = i)
    (h : exec i s = .next t) : s.transact w = t := by
  subst hw
  rw [exec_decodeWord] at h
  exact Host.Outcome.next.inj h

/-- Settles O6: what the port gives, for each kind of port. -/
theorem stepRunsDecodedTransaction : Obligations.StepRunsDecodedTransaction := by
  refine ⟨fun s w rest hp => ?txn, fun s rest hp => ?reset, fun s hp => ?idle⟩
  case txn => simp [step, State.fetch, hp]
  case reset => simp [step, State.fetch, hp, State.resetEvent]
  case idle => simp [step, State.fetch, hp]

/-- The machine with given events on its port (log 1). -/
def State.withPort (es : List HostEvent) (s : State) : State := { s with pending := es }

@[simp] theorem withPort_pending (es : List HostEvent) (s : State) : (s.withPort es).pending = es := rfl

/-- With an event on the port, a step applies it to the state with the event taken off. -/
theorem step_of_pending_cons {s : State} {e : HostEvent} {rest : List HostEvent} (hp : s.pending = e :: rest) :
    step s = .next ((s.withPort rest).apply e) := by
  obtain ⟨htxn, hreset, -⟩ := stepRunsDecodedTransaction
  cases e with
  | txn w => exact (htxn s w rest hp).trans (exec_decodeWord w _)
  | reset => exact hreset s rest hp

theorem step_of_pending_nil {s : State} (hp : s.pending = []) : step s = .next s := by
  obtain ⟨-, -, hidle⟩ := stepRunsDecodedTransaction
  exact hidle s hp

theorem transact_withPort (w : TxnWord) (es : List HostEvent) (s : State) :
    (s.withPort es).transact w = (s.transact w).withPort es := by
  rcases read_or_write_word w with ⟨reg, data, rfl⟩ | ⟨reg, data, rfl⟩
  · rw [transact_packWord_read, transact_packWord_read]
    rfl
  · rw [transact_writeTxn, transact_writeTxn]
    rfl

/-- An event neither looks at the port nor touches it. -/
theorem apply_withPort (e : HostEvent) (es : List HostEvent) (s : State) :
    (s.withPort es).apply e = (s.apply e).withPort es := by
  cases e with
  | txn w => exact transact_withPort w es s
  | reset => rfl

@[simp] theorem apply_pending (e : HostEvent) (s : State) : (s.apply e).pending = s.pending :=
  (congrArg State.pending (apply_withPort e s.pending s) :)

theorem exec_keeps_pending (i : Instr) (s : State) : ∃ t, exec i s = .next t ∧ t.pending = s.pending := by
  cases i <;> exact ⟨_, rfl, rfl⟩

theorem step_takes_one_event (s : State) : ∃ t, step s = .next t ∧ t.pending = s.pending.tail := by
  cases hp : s.pending with
  | nil => exact ⟨s, step_of_pending_nil hp, hp⟩
  | cons e rest => exact ⟨_, step_of_pending_cons hp, apply_pending e _⟩

/-- Settles O7: no instruction and no step has another outcome. -/
theorem everyTransactionHasOneSuccessor : Obligations.EveryTransactionHasOneSuccessor :=
  ⟨exec_keeps_pending, step_takes_one_event⟩

/-- By induction on the events: the first step applies the first event and leaves the others on the port. -/
theorem run_withPort (es rest : List HostEvent) (s : State) :
    Sys2Proof.core.run es.length (s.withPort (es ++ rest)) = .next ((s.withPort rest).applyAll es) := by
  induction es generalizing s with
  | nil => rfl
  | cons e es ih =>
    have hstep : step (s.withPort (e :: es ++ rest)) = .next ((s.apply e).withPort (es ++ rest)) := by
      rw [← apply_withPort]
      exact step_of_pending_cons rfl
    rw [List.length_cons, run_succ_next Sys2Proof.core es.length hstep, ih, State.applyAll_cons, apply_withPort]

/-- Settles O9, by the induction of `run_withPort`. -/
theorem runAppliesEventsLeftToRight : Obligations.RunAppliesEventsLeftToRight := run_withPort

theorem applyAll_map_txn (ws : List TxnWord) (s : State) : s.applyAll (ws.map .txn) = s.issue ws :=
  List.foldl_map

/-- What every word of a program keeps, the program keeps. -/
theorem issue_keeps {P : State → Prop} {ws : List TxnWord} (hkeep : ∀ w ∈ ws, ∀ s, P s → P (s.transact w)) {s : State}
    (hs : P s) : P (s.issue ws) :=
  List.foldlRecOn ws _ hs fun s hs w hw => hkeep w hw s hs

theorem issue_pending (ws : List TxnWord) (s : State) : (s.issue ws).pending = s.pending :=
  issue_keeps (P := fun t => t.pending = s.pending) (fun w _ t ht => (apply_pending (.txn w) t).trans ht) rfl

/-- A program alone on the port has run after as many steps as it has words (R188). -/
theorem run_withProgram (ws : List TxnWord) (s : State) :
    Sys2Proof.core.run ws.length (s.withProgram ws) = .next ((s.withPort []).issue ws) := by
  have hrun := run_withPort (ws.map .txn) [] s
  rwa [List.append_nil, List.length_map, applyAll_map_txn] at hrun

/-- A run of any length goes on, and takes one event off the port with each step. -/
theorem run_takes_events (n : Nat) (s : State) :
    ∃ t, Sys2Proof.core.run n s = .next t ∧ t.pending.length = s.pending.length - n := by
  induction n generalizing s with
  | zero => exact ⟨s, rfl, rfl⟩
  | succ n ih =>
    obtain ⟨t, hstep, htail⟩ := step_takes_one_event s
    obtain ⟨u, hrun, hlength⟩ := ih t
    refine ⟨u, (run_succ_next Sys2Proof.core n hstep).trans hrun, ?_⟩
    rw [hlength, htail, List.length_tail]
    omega

/-- Settles O10: the length left on the port counts the steps, and O9 gives what the last one leaves. -/
theorem programRunFromResetEnds : Obligations.ProgramRunFromResetEnds := by
  intro ws
  refine ⟨fun n => ?length, _, run_withProgram ws State.reset, issue_pending ws _, rfl⟩
  case length =>
    obtain ⟨t, hrun, hlength⟩ := run_takes_events n (State.reset.withProgram ws)
    rw [withProgram_pending, List.length_map] at hlength
    exact ⟨t, hrun, hlength⟩

theorem toByte_reset : Block.reset.status.toByte = 0x00 := by decide

/-- The access bytes at reset are a valid field that encodes the zero matrix (R31). -/
theorem runDecode_reset : Block.reset.runDecode = Block.reset.succeed := by decide

/-- Settles O45: the step of a reset event gives the reset block, whose fields are the values of R31. -/
theorem resetEventGivesResetValues : Obligations.ResetEventGivesResetValues :=
  fun _ _ hp => ⟨_, step_of_pending_cons hp, rfl, toByte_reset, rfl, rfl⟩

theorem toByte_success : Status.success.toByte = 0x01 := by decide

/-- Settles O46: the DECODE behind the reset event runs on the reset block. -/
theorem decodeAfterResetSucceeds : Obligations.DecodeAfterResetSucceeds := by
  intro s rest hp
  obtain ⟨t, hreset, hblock, hpending⟩ : ∃ t, step s = .next t ∧ t.block = Block.reset ∧ t.pending = .txn 0xF01 :: rest :=
    ⟨_, step_of_pending_cons hp, rfl, rfl⟩
  have hdecode : ((t.withPort rest).apply (.txn 0xF01)).block = t.block.succeed := by
    rw [hblock, ← runDecode_reset, ← hblock]
    exact congrArg State.block (transact_writeTxn .cmd 0x01 (t.withPort rest))
  refine ⟨t, _, hreset, step_of_pending_cons hpending, ?status, ?mat, ?triple, apply_pending _ _⟩
  case status => rw [hdecode, succeed_status, toByte_success]
  case mat => rw [hdecode, succeed_mat]
  case triple => rw [hdecode, triple_succeed]

/-- Settles O51: every step goes on, and the system puts its result back in the place it came from. -/
theorem instanceStepIsLocal : Obligations.InstanceStepIsLocal := by
  intro n i sys
  obtain ⟨t, hstep, -⟩ := step_takes_one_event sys.insts[i]
  refine ⟨t, { insts := sys.insts.set i t }, hstep, ?own, Vector.getElem_set_self i.isLt, fun j hj =>
    Vector.getElem_set_ne i.isLt j.isLt (Fin.val_ne_of_ne hj.symm)⟩
  case own => simp only [System.stepAt, hstep]

end Sys2Proof.Machine
end

section
/-! PROOFS. The two round trips of the codec (spec/40_codec_core.md R87 to R90): `encodeMat` and `extract` are inverse to
each other between the matrices and the valid fields. -/

namespace Sys2Proof.Machine

/-- The true copies of an encoded field are the planes of its matrix. -/
@[simp] theorem extract_encodeMat (m : Mat) : extract (encodeMat m) = m := by
  simp only [extract, encodeMat, hiNibble_joinNibbles, loNibble_joinNibbles, packPlanes_planes]

theorem encodeMat_valid (m : Mat) : (encodeMat m).Valid := (valid_iff_violations_eq_zero _).mpr (violations_encodeMat m)

/-- `Decode` gives a matrix exactly on the valid fields, and then the true copies. -/
theorem decodeTriple_eq_ok_iff (f : Triple) (m : Mat) : decodeTriple f = .ok m ↔ f.Valid ∧ extract f = m := by
  rw [valid_iff_violations_eq_zero]
  rcases decodeTriple_cases f with ⟨hnone, hok⟩ | ⟨hsome, herr⟩
  · rw [hok, Result.ok.injEq]
    exact ⟨fun h => ⟨hnone, h⟩, fun ⟨_, h⟩ => h⟩
  · rw [herr]
    exact ⟨nofun, fun ⟨hnone, _⟩ => absurd hnone hsome⟩

theorem exists_decodeTriple_eq_err_iff (f : Triple) : (∃ e, decodeTriple f = .err e) ↔ ¬f.Valid := by
  rw [valid_iff_violations_eq_zero]
  rcases decodeTriple_cases f with ⟨hnone, hok⟩ | ⟨hsome, herr⟩
  · simp [hok, hnone]
  · simpa [herr] using hsome

theorem decodeTriple_encodeMat (m : Mat) : decodeTriple (encodeMat m) = .ok m :=
  (decodeTriple_eq_ok_iff _ _).mpr ⟨encodeMat_valid m, extract_encodeMat m⟩

theorem triple_eq_of_bytes {f g : Triple} (h0 : f.b0 = g.b0) (h1 : f.b1 = g.b1) (h2 : f.b2 = g.b2) : f = g := by
  cases f
  cases g
  exact (Triple.mk.injEq ..).mpr ⟨h0, h1, h2⟩

/-- A field is valid when each inverted copy is the complement of its true copy (R80 to R83). -/
theorem valid_iff_nibbles (f : Triple) :
    f.Valid ↔ hiNibble f.b1 = ~~~loNibble f.b0 ∧ loNibble f.b2 = ~~~hiNibble f.b0 ∧ hiNibble f.b2 = ~~~loNibble f.b1 := by
  rw [valid_iff_violations_eq_zero, violations_eq_zero_iff, checkC1_iff, checkC2_iff, checkC3_iff]

/-- `Encode` writes the complements that the checks ask for. -/
theorem encodeMat_extract {f : Triple} (hf : f.Valid) : encodeMat (extract f) = f := by
  obtain ⟨h1, h2, h3⟩ := (valid_iff_nibbles f).mp hf
  apply triple_eq_of_bytes
  · exact byte_eq_of_nibbles (by simp [encodeMat, extract, h2]) (by simp [encodeMat, extract, h1])
  · exact byte_eq_of_nibbles (by simp [encodeMat, extract]) (by simp [encodeMat, extract, h3])
  · exact byte_eq_of_nibbles (by simp [encodeMat, extract]) (by simp [encodeMat, extract])

/-- DECODE finds the matrix that ENCODE has just encoded, and records the success already recorded. -/
theorem runDecode_runEncode (b : Block) : b.runEncode.runDecode = b.runEncode := by
  have hvalid : violations b.runEncode.triple = 0 := violations_encodeMat b.mat
  have hmat : extract b.runEncode.triple = b.mat := extract_encodeMat b.mat
  rw [runDecode_of_valid hvalid, hmat]
  rfl

/-- Settles O39: the checks hold on an encoded field and its true copies are the matrix. -/
theorem decodeOfEncodeIsTheMatrix : Obligations.DecodeOfEncodeIsTheMatrix := by
  refine ⟨fun m => ⟨decodeTriple_encodeMat m, ?validate⟩, fun s => ⟨s.onBlock Block.runEncode, rfl, ?decode, rfl⟩⟩
  case validate => simp [validate, violations_encodeMat]
  case decode => exact exec_decode_of_runDecode (runDecode_runEncode s.block)

/-- Settles O40: the matrix of a valid field is its true copies, and they determine the other twelve bits. -/
theorem encodeOfDecodeIsTheField : Obligations.EncodeOfDecodeIsTheField := fun f hf =>
  ⟨encodeMat_extract hf, extract f, (decodeTriple_eq_ok_iff f _).mpr ⟨hf, rfl⟩, encodeMat_extract hf⟩

/-- The valid fields are the encoded ones. -/
theorem setOf_valid_eq_range : {f : Triple | f.Valid} = Set.range encodeMat := by
  ext f
  exact ⟨fun hf => ⟨extract f, encodeMat_extract hf⟩, by rintro ⟨m, rfl⟩; exact encodeMat_valid m⟩

theorem encodeMat_injective : Function.Injective encodeMat := Function.LeftInverse.injective extract_encodeMat

/-- A field is its three bytes (R21). -/
def tripleEquiv : Triple ≃ Byte × Byte × Byte where
  toFun f := (f.b0, f.b1, f.b2)
  invFun p := ⟨p.1, p.2.1, p.2.2⟩

theorem card_bitVec (n : Nat) : Nat.card (BitVec n) = 2 ^ n := by
  rw [Nat.card_congr BitVec.equivFin.toEquiv, Nat.card_fin]

theorem card_triple : Nat.card Triple = 2 ^ 24 := by
  rw [Nat.card_congr tripleEquiv, Nat.card_prod, Nat.card_prod, card_bitVec]
  rfl

theorem ncard_valid : {f : Triple | f.Valid}.ncard = 4096 := by
  rw [setOf_valid_eq_range, Set.ncard_range_of_injective encodeMat_injective, card_bitVec]
  rfl

/-- Settles O41: the valid fields are counted by the matrices they encode, the violations are the others, and a matrix
comes from its encoding alone. -/
theorem validFieldsNumber4096 : Obligations.ValidFieldsNumber4096 := by
  refine ⟨ncard_valid, ?violations, fun m => ⟨encodeMat m, decodeTriple_encodeMat m, fun f hf => ?unique⟩⟩
  case violations =>
    have hfinite : Finite Triple := Finite.of_equiv _ tripleEquiv.symm
    have hcompl : {f : Triple | ∃ v, decodeTriple f = .err v} = {f : Triple | f.Valid}ᶜ :=
      Set.ext exists_decodeTriple_eq_err_iff
    rw [hcompl, Set.ncard_compl, card_triple, ncard_valid]
    rfl
  case unique =>
    obtain ⟨hvalid, rfl⟩ := (decodeTriple_eq_ok_iff f m).mp hf
    exact (encodeMat_extract hvalid).symm

end Sys2Proof.Machine
end

section
/-! PROOFS. Corrupted fields (spec/40_codec_core.md R91, R92): which checks a corruption of a valid field fails depends on
the corruption alone. -/

namespace Sys2Proof.Machine

/-- The checks that a corruption makes a valid field fail: those of the planes whose two copies it flips differently. -/
def syndrome (e : Triple) : Viol :=
  BitVec.ofBool (hiNibble e.b2 != loNibble e.b1) ++ BitVec.ofBool (loNibble e.b2 != hiNibble e.b0) ++
    BitVec.ofBool (hiNibble e.b1 != loNibble e.b0)

@[simp] theorem hiNibble_xor (a b : Byte) : hiNibble (a ^^^ b) = hiNibble a ^^^ hiNibble b := BitVec.extractLsb'_xor

@[simp] theorem loNibble_xor (a b : Byte) : loNibble (a ^^^ b) = loNibble a ^^^ loNibble b := BitVec.extractLsb'_xor

/-- When one copy of a plane is the complement of the other, flips of both keep it so exactly when they agree. -/
theorem xor_eq_not_xor_iff {a b : Nibble} (hab : a = ~~~b) (x y : Nibble) : a ^^^ x = ~~~(b ^^^ y) ↔ x = y := by
  rw [hab, BitVec.not_xor_left, BitVec.xor_right_inj]

/-- So a check of a corrupted valid field fails exactly when the flips of its two copies differ. -/
theorem not_check_flip {a b : Nibble} (hab : a = ~~~b) (x y : Nibble) : (!(a ^^^ x == ~~~(b ^^^ y))) = (x != y) :=
  congrArg not (Bool.eq_iff_iff.mpr (by rw [beq_iff_eq, beq_iff_eq, xor_eq_not_xor_iff hab]))

theorem violations_flip {f : Triple} (hf : f.Valid) (e : Triple) : violations (f.flip e) = syndrome e := by
  obtain ⟨h1, h2, h3⟩ := (valid_iff_nibbles f).mp hf
  simp only [violations, syndrome, checkC1, checkC2, checkC3, Triple.flip, hiNibble_xor, loNibble_xor,
    not_check_flip h1, not_check_flip h2, not_check_flip h3]

/-- A corruption leaves a valid field valid when it flips the two copies of each plane alike. -/
theorem flip_valid_iff {f : Triple} (hf : f.Valid) (e : Triple) :
    (f.flip e).Valid ↔ loNibble e.b0 = hiNibble e.b1 ∧ hiNibble e.b0 = loNibble e.b2 ∧ loNibble e.b1 = hiNibble e.b2 := by
  obtain ⟨h1, h2, h3⟩ := (valid_iff_nibbles f).mp hf
  rw [valid_iff_nibbles, eq_comm (a := loNibble e.b0), eq_comm (a := hiNibble e.b0), eq_comm (a := loNibble e.b1)]
  simp only [Triple.flip, hiNibble_xor, loNibble_xor, xor_eq_not_xor_iff h1, xor_eq_not_xor_iff h2,
    xor_eq_not_xor_iff h3]

/-- Settles O42: a flip of one bit is a corruption of one copy of one plane, and its syndrome is that plane's check. -/
theorem singleBitFlipFailsOneCheck : Obligations.SingleBitFlipFailsOneCheck := by
  intro f hf k hk
  have hflip : ∀ e : Triple, (validate (f.flip e)).2 = syndrome e := violations_flip hf
  have h0 : ∀ x : Byte, { f with b0 := f.b0 ^^^ x } = f.flip ⟨x, 0, 0⟩ := fun x => by simp [Triple.flip]
  have h1 : ∀ x : Byte, { f with b1 := f.b1 ^^^ x } = f.flip ⟨0, x, 0⟩ := fun x => by simp [Triple.flip]
  have h2 : ∀ x : Byte, { f with b2 := f.b2 ^^^ x } = f.flip ⟨0, 0, x⟩ := fun x => by simp [Triple.flip]
  simp only [h0, h1, h2, hflip]
  interval_cases k <;> decide

theorem nibble_eq_iff (a b : Nibble) : a = b ↔ ∀ k < 4, a.getLsbD k = b.getLsbD k :=
  ⟨fun h _ _ => h ▸ rfl, fun h => BitVec.eq_of_getLsbD_eq h⟩

/-- Settles O43: the nibbles of the corruption compared bit by bit, and its true copies added to those of the field. -/
theorem undetectedCorruptionsFlipBothCopies : Obligations.UndetectedCorruptionsFlipBothCopies := by
  intro e f hf
  refine ⟨?detect, fun hflip => ⟨extract (f.flip e), (decodeTriple_eq_ok_iff _ _).mpr ⟨hflip, rfl⟩, fun k hk => ?cells⟩⟩
  case detect =>
    rw [flip_valid_iff hf]
    simp +contextual only [nibble_eq_iff, getLsbD_hiNibble_of_lt, getLsbD_loNibble_of_lt, ← forall_and]
  case cells =>
    obtain ⟨hc1, hc2, hc3⟩ := cell_extract (f.flip e) hk
    obtain ⟨hf1, hf2, hf3⟩ := cell_extract f hk
    rw [hc1, hc2, hc3, hf1, hf2, hf3]
    simp only [Triple.flip, BitVec.getLsbD_xor, and_self]

end Sys2Proof.Machine
end

section
/-! PROOFS. What MAT reads after a successful DECODE (spec/30_encoding.md R67). -/

namespace Sys2Proof.Machine

theorem hiNibble_not (b : Byte) : hiNibble (~~~b) = ~~~hiNibble b := by
  apply BitVec.eq_of_getLsbD_eq
  intro i hi
  simp [hiNibble, hi, show 4 + i < 8 by omega]

theorem loNibble_not (b : Byte) : loNibble (~~~b) = ~~~loNibble b := BitVec.extractLsb'_not_of_lt (by decide)

/-- MAT_LO reads the C2 plane over the C1 plane (R41). -/
theorem memRead_matLo_nibbles (b : Block) :
    hiNibble (b.memRead .matLo) = planeC2 b.mat ∧ loNibble (b.memRead .matLo) = planeC1 b.mat :=
  ⟨BitVec.extractLsb'_extractLsb'_of_le (by decide), BitVec.extractLsb'_extractLsb'_of_le (by decide)⟩

/-- The high nibble with four zeros over it is the byte shifted down. -/
theorem setWidth_hiNibble (b : Byte) : (hiNibble b).setWidth 8 = b >>> 4 := by
  apply BitVec.eq_of_getLsbD_eq
  intro i hi
  by_cases h4 : i < 4
  · simp [hiNibble, h4, hi]
  · simp [hiNibble, h4, BitVec.getLsbD_of_ge b (4 + i) (by omega)]

/-- Settles O44: the checks make the extracted matrix the complement of byte 0 and the high nibble of byte 2. -/
theorem matrixReadsFollowValidField : Obligations.MatrixReadsFollowValidField := by
  intro s hs
  obtain ⟨h1, h2, -⟩ := (valid_iff_nibbles s.block.triple).mp hs
  have hdecode := runDecode_of_valid ((valid_iff_violations_eq_zero _).mp hs)
  refine ⟨_, exec_decode_of_runDecode hdecode, ?lo, ?hi⟩
  case lo =>
    obtain ⟨hhi, hlo⟩ := memRead_matLo_nibbles { s.block with mat := extract s.block.triple, status := Status.success }
    refine byte_eq_of_nibbles (hhi.trans ?_) (hlo.trans ?_)
    · rw [extract, planeC2_packPlanes, h2, hiNibble_not, triple_b0]
    · rw [extract, planeC1_packPlanes, h1, loNibble_not, triple_b0]
  case hi =>
    exact (congrArg (·.setWidth 8) (planeC3_packPlanes _ _ _)).trans (setWidth_hiNibble _)

end Sys2Proof.Machine
end

section
/-! PROOFS. The round trip of the two host adapters (spec/60_exceptions.md R167, R168; 40_codec_core.md R87). -/

namespace Sys2Proof.Machine

theorem map_getD_range {α : Type} {l : List α} {n : Nat} (hn : l.length = n) (d : α) :
    (List.range n).map (fun i => l.getD i d) = l := by
  subst hn
  exact List.ext_getElem (by simp) (by simp +contextual)

/-- The rows of a packed array are those of the array: they have the same cells, as many in each row. -/
theorem matRows_packRows {rows : List (List Nat)} (h : wellShaped rows = true) : matRows (packRows rows) = rows := by
  obtain ⟨hlen, hrows⟩ := (wellShaped_iff rows).mp h
  have hrow : ∀ c ∈ List.range 3, ((List.range 4).map fun k => (cell (packRows rows) c k).toNat) = rows.getD c [] := by
    intro c hc
    have hc3 := List.mem_range.mp hc
    have hmem : rows.getD c [] ∈ rows := by
      rw [List.getD_eq_getElem _ _ (hlen ▸ hc3)]
      exact List.getElem_mem _
    obtain ⟨hfour, -⟩ := hrows _ hmem
    calc ((List.range 4).map fun k => (cell (packRows rows) c k).toNat)
        = (List.range 4).map fun k => (rows.getD c []).getD k 0 :=
          List.map_congr_left fun k hk => toNat_cell_packRows h hc3 (List.mem_range.mp hk)
      _ = rows.getD c [] := map_getD_range hfour 0
  calc matRows (packRows rows)
      = (List.range 3).map fun c => rows.getD c [] := List.map_congr_left hrow
    _ = rows := map_getD_range hlen []

/-- Settles O49: the field `encodeMatrix` returns is valid and decodes to the packed matrix, whose rows are those given. -/
theorem adaptersRoundTrip : Obligations.AdaptersRoundTrip := by
  intro rows s s' hlen hrows
  have h := (wellShaped_iff rows).mpr ⟨hlen, hrows⟩
  refine ⟨encodeMat (packRows rows), by rw [encodeMatrix_of_wellShaped h], ?_⟩
  rw [decodeBytes_of_ok rfl (decodeTriple_encodeMat _), matRows_packRows h]

end Sys2Proof.Machine
end

section
/-! PROOFS. What each location reads after a write (spec/20_memory.md R43, R50; 70_reset_and_hazards.md R183, R184), and
that the reads determine the block (60_exceptions.md R163). -/

namespace Sys2Proof.Machine

@[simp] theorem memRead_writeMatLo_matLo (d : Byte) (b : Block) : (b.writeMatLo d).memRead .matLo = d :=
  BitVec.extractLsb'_append_eq_right

@[simp] theorem memRead_writeMatLo_matHi (d : Byte) (b : Block) :
    (b.writeMatLo d).memRead .matHi = b.memRead .matHi :=
  congrArg (BitVec.setWidth 8) BitVec.extractLsb'_append_eq_left

@[simp] theorem memRead_writeMatHi_matLo (d : Byte) (b : Block) :
    (b.writeMatHi d).memRead .matLo = b.memRead .matLo :=
  BitVec.extractLsb'_append_eq_right

@[simp] theorem memRead_writeMatHi_matHi (d : Byte) (b : Block) : (b.writeMatHi d).memRead .matHi = d &&& 0x0F := by
  have hplane : (b.writeMatHi d).mat.extractLsb' 8 4 = d.extractLsb' 0 4 := BitVec.extractLsb'_append_eq_left
  have hmask : ∀ d : Byte, (d.extractLsb' 0 4).setWidth 8 = d &&& 0x0F := by decide
  exact (congrArg (BitVec.setWidth 8) hplane).trans (hmask d)

/-- R43: a write of a data register or of an ignored location leaves every other location. -/
theorem memRead_memWrite_of_ne {reg other : Reg} (hcmd : reg ≠ .cmd) (hne : other ≠ reg) (d : Byte) (b : Block) :
    (b.memWrite reg d).memRead other = b.memRead other := by
  cases reg with
  | acb0 =>
    cases other with
    | acb0 => exact absurd rfl hne
    | _ => rfl
  | acb1 =>
    cases other with
    | acb1 => exact absurd rfl hne
    | _ => rfl
  | acb2 =>
    cases other with
    | acb2 => exact absurd rfl hne
    | _ => rfl
  | rsvd3 => rfl
  | matLo =>
    cases other with
    | matLo => exact absurd rfl hne
    | matHi => exact memRead_writeMatLo_matHi d b
    | _ => rfl
  | matHi =>
    cases other with
    | matLo => exact memRead_writeMatHi_matLo d b
    | matHi => exact absurd rfl hne
    | _ => rfl
  | status => rfl
  | cmd => exact absurd rfl hcmd

/-- R43: only a write of CMD writes STATUS. -/
theorem status_memWrite_of_ne {reg : Reg} (hcmd : reg ≠ .cmd) (d : Byte) (b : Block) :
    (b.memWrite reg d).status = b.status := by
  cases reg with
  | cmd => exact absurd rfl hcmd
  | _ => rfl

/-- Settles O20: a write word is the write of its location, whose frame is known. -/
theorem dataWriteLeavesOtherLocations : Obligations.DataWriteLeavesOtherLocations := fun r d s hr =>
  ⟨_, exec_decodeWord_writeTxn r d s, fun _ hne => memRead_memWrite_of_ne hr hne d s.block,
    status_memWrite_of_ne hr d s.block, rfl, rfl⟩

/-- Settles O21: MAT_LO and MAT_HI by their lemmas, the other locations by definition. -/
theorem readAfterWriteReturnsNewValue : Obligations.ReadAfterWriteReturnsNewValue := by
  refine fun r d s => ⟨_, exec_decodeWord_writeTxn r d s, exec_rd_of_memRead ?_⟩
  cases r with
  | matLo => exact memRead_writeMatLo_matLo d s.block
  | matHi => exact memRead_writeMatHi_matHi d s.block
  | _ => rfl

/-- MAT_LO and MAT_HI show all twelve bits of MAT. -/
theorem mat_eq_of_memRead {b b' : Block} (hlo : b.memRead .matLo = b'.memRead .matLo)
    (hhi : b.memRead .matHi = b'.memRead .matHi) : b.mat = b'.mat := by
  apply BitVec.eq_of_getLsbD_eq
  intro i hi
  by_cases h8 : i < 8
  · simpa [Block.memRead, h8] using congrArg (·.getLsbD i) hlo
  · simpa [Block.memRead, show i - 8 < 8 by omega, show i - 8 < 4 by omega, show 8 + (i - 8) = i by omega]
      using congrArg (·.getLsbD (i - 8)) hhi

@[simp] theorem ofCode_code (e : ErrCode) : ErrCode.ofCode e.code = e := by cases e <;> rfl

/-- The byte shows all six bits of STATUS (R68). -/
theorem ofBits_toByte (st : Status) : Status.ofBits (st.toByte.setWidth 6) = st := by
  have hvalid : (st.toByte.setWidth 6).getLsbD 0 = st.valid := by simpa using getLsbD_toByte st 0
  have herr : (st.toByte.setWidth 6).extractLsb' 1 2 = st.err.code := by
    apply BitVec.eq_of_getLsbD_eq
    intro i hi
    simp [getLsbD_toByte, hi, show 1 + i < 6 by omega, show 1 + i < 3 by omega]
  have hviol : (st.toByte.setWidth 6).extractLsb' 3 3 = st.viol := by
    apply BitVec.eq_of_getLsbD_eq
    intro i hi
    simp [getLsbD_toByte, hi, show 3 + i < 6 by omega, show ¬ 3 + i < 1 by omega]
  rw [Status.ofBits, hvalid, herr, hviol, ofCode_code]

theorem toByte_injective : Function.Injective Status.toByte := by
  intro st st' h
  rw [← ofBits_toByte st, h, ofBits_toByte]

/-- Settles O25: each field of the block shows in its own locations. -/
theorem readsDetermineTheBlock : Obligations.ReadsDetermineTheBlock := by
  intro b b' h
  have hmat := mat_eq_of_memRead (h .matLo) (h .matHi)
  have hstatus := toByte_injective (h .status)
  cases b
  cases b'
  exact (Block.mk.injEq ..).mpr ⟨h .acb0, h .acb1, h .acb2, hmat, hstatus⟩

/-- Two words do the same in either order. -/
def WordsCommute (v w : TxnWord) : Prop := ∀ s : State, (s.transact v).transact w = (s.transact w).transact v

/-- A program whose words commute leaves the same in any order. -/
theorem issue_perm {ws vs : List TxnWord} (hperm : ws.Perm vs) (hcomm : vs.Pairwise WordsCommute) (s : State) :
    s.issue ws = s.issue vs := by
  have hsymm : Std.Symm WordsCommute := ⟨fun _ _ h s => (h s).symm⟩
  have hall : ∀ v ∈ vs, ∀ w ∈ vs, ∀ s : State, (s.transact v).transact w = (s.transact w).transact v :=
    fun _ hv _ hw => hcomm.forall_of_forall (fun _ _ _ => rfl) hv hw
  exact (hperm.symm.foldl_eq' hall s).symm

theorem commute_writeTxn {reg other : Reg} {d e : Byte}
    (h : ∀ b : Block, (b.memWrite reg d).memWrite other e = (b.memWrite other e).memWrite reg d) :
    WordsCommute (writeTxn reg d) (writeTxn other e) := by
  intro s
  simp only [transact_writeTxn]
  exact congrArg (fun b => { s with block := b }) (h s.block)

/-- The writes of MAT_LO and MAT_HI commute: each has planes of its own. -/
theorem writeMatLo_writeMatHi_comm (d e : Byte) (b : Block) :
    (b.writeMatLo d).writeMatHi e = (b.writeMatHi e).writeMatLo d := by
  have hmat : ((b.writeMatLo d).writeMatHi e).mat = ((b.writeMatHi e).writeMatLo d).mat :=
    mat_eq_of_memRead (by simp) (by simp)
  exact congrArg (fun m => { b with mat := m }) hmat

/-- Each access byte is a field of its own. -/
theorem ldacb_words_commute (f : Triple) : (AsmLine.ldacb f).words.Pairwise WordsCommute := by
  simp only [AsmLine.words, List.pairwise_cons, List.forall_mem_cons]
  exact ⟨⟨commute_writeTxn fun _ => rfl, commute_writeTxn fun _ => rfl, nofun⟩, ⟨commute_writeTxn fun _ => rfl, nofun⟩,
    nofun, .nil⟩

theorem ldmat_words_commute (m : Mat) : (AsmLine.ldmat m).words.Pairwise WordsCommute := by
  simp only [AsmLine.words, List.pairwise_cons, List.forall_mem_cons]
  exact ⟨⟨commute_writeTxn (writeMatLo_writeMatHi_comm _ _), nofun⟩, nofun, .nil⟩

/-- Settles O27: the words of a load commute, so any order does what the load does. -/
theorem loadOrderDoesNotMatter : Obligations.LoadOrderDoesNotMatter := by
  refine ⟨fun f ws s hperm => ?ldacb, fun m ws s hperm => ?ldmat⟩
  case ldacb => rw [issue_perm hperm (ldacb_words_commute f), issue_ldacb, onBlock_block]
  case ldmat => rw [issue_perm hperm (ldmat_words_commute m), issue_ldmat]

end Sys2Proof.Machine
end

section
/-! PROOFS. What each transaction writes and keeps (spec/10_state.md R21, R22, R24; 20_memory.md R44; 42_commands.md
R136), and from that who writes which register in a step. -/

namespace Sys2Proof.Machine

@[simp] theorem triple_runDecode (b : Block) : b.runDecode.triple = b.triple := by
  rcases runDecode_cases b with ⟨-, h⟩ | ⟨-, h⟩
  · rw [h]; rfl
  · rw [h, triple_raise]

@[simp] theorem triple_runCheck (b : Block) : b.runCheck.triple = b.triple := by
  rcases runCheck_cases b with ⟨-, h⟩ | ⟨-, h⟩
  · rw [h, triple_succeed]
  · rw [h, triple_raise]

@[simp] theorem mat_runCheck (b : Block) : b.runCheck.mat = b.mat := by
  rcases runCheck_cases b with ⟨-, h⟩ | ⟨-, h⟩
  · rw [h, succeed_mat]
  · rw [h, raise_mat]

/-- Settles O22, command by command. -/
theorem commandsLeaveTheirSources : Obligations.CommandsLeaveTheirSources := by
  intro i s hi
  cases i with
  | decode => exact ⟨_, rfl, fun _ => triple_runDecode s.block, fun h => absurd rfl h, rfl, rfl⟩
  | encode => exact ⟨_, rfl, fun h => absurd rfl h, fun _ => rfl, rfl, rfl⟩
  | check => exact ⟨_, rfl, fun _ => triple_runCheck s.block, fun _ => mat_runCheck s.block, rfl, rfl⟩
  | cmdReserved code => exact ⟨_, rfl, fun _ => rfl, fun _ => rfl, rfl, rfl⟩
  | _ => cases hi

/-- R24: a transaction other than a command that writes STATUS keeps it. -/
theorem exec_keeps_status {i : Instr} (hi : i.writesStatus = false) {s t : State} (h : exec i s = .next t) :
    t.block.status = s.block.status := by
  cases i with
  | decode | encode | check | cmdReserved code => cases hi
  | _ => cases h; rfl

theorem transact_keeps_status {w : TxnWord} (hw : (decodeWord w).writesStatus = false) (s : State) :
    (s.transact w).block.status = s.block.status :=
  exec_keeps_status hw (exec_decodeWord w s)

/-- A word that changes STATUS is a write of CMD, and not NOP's (R24, R64). -/
theorem fields_of_transact_changes_status {w : TxnWord} {s : State}
    (hne : (s.transact w).block.status ≠ s.block.status) : rwField w = 1 ∧ addrField w = 7 ∧ dataField w ≠ 0 := by
  rcases read_or_write_word w with ⟨reg, data, rfl⟩ | ⟨reg, data, rfl⟩
  · rw [transact_packWord_read, respond_block] at hne
    exact absurd rfl hne
  · rw [transact_writeTxn, onBlock_block] at hne
    obtain rfl : reg = .cmd := by
      by_contra hreg
      exact hne (status_memWrite_of_ne hreg data s.block)
    refine ⟨rwField_packWord 1 .cmd data, addrField_packWord 1 .cmd data, ?_⟩
    rw [writeTxn, dataField_packWord]
    rintro rfl
    exact hne rfl

/-- Settles O23: an idle step changes nothing, and a word that changes STATUS has the fields of a command. -/
theorem onlyCommandsAndResetWriteStatus : Obligations.OnlyCommandsAndResetWriteStatus := by
  intro s
  rcases step_cases s with ⟨-, hstep⟩ | ⟨w, rest, hp, hstep⟩ | ⟨rest, hp, hstep⟩
  · exact ⟨s, hstep, fun hne => absurd rfl hne⟩
  · exact ⟨_, hstep.trans (exec_decodeWord w _), fun hne =>
      .inl ⟨w, rest, hp, fields_of_transact_changes_status (s := { s with pending := rest }) hne⟩⟩
  · exact ⟨_, hstep, fun _ => .inr ⟨rest, hp⟩⟩

/-- R22: MAT is written by a DECODE of a valid field and by the writes of MAT_LO and MAT_HI. -/
theorem exec_changes_mat {i : Instr} {s t : State} (h : exec i s = .next t) (hne : t.block.mat ≠ s.block.mat) :
    (i = .decode ∧ s.block.triple.Valid) ∨ ∃ d, i = .wrMatLo d ∨ i = .wrMatHi d := by
  cases i with
  | wrMatLo d => exact .inr ⟨d, .inl rfl⟩
  | wrMatHi d => exact .inr ⟨d, .inr rfl⟩
  | decode =>
    cases h
    rcases runDecode_cases s.block with ⟨hvalid, -⟩ | ⟨-, herr⟩
    · exact .inl ⟨rfl, (valid_iff_violations_eq_zero _).mpr hvalid⟩
    · exact absurd (congrArg Block.mat herr) hne
  | check => cases h; exact absurd (mat_runCheck s.block) hne
  | _ => cases h; exact absurd rfl hne

/-- R21: the access bytes are written by ENCODE and by their own writes. -/
theorem exec_changes_triple {i : Instr} {s t : State} (h : exec i s = .next t)
    (hne : t.block.triple ≠ s.block.triple) :
    i = .encode ∨ ∃ d, i = .wrAcb0 d ∨ i = .wrAcb1 d ∨ i = .wrAcb2 d := by
  cases i with
  | wrAcb0 d => exact .inr ⟨d, .inl rfl⟩
  | wrAcb1 d => exact .inr ⟨d, .inr (.inl rfl)⟩
  | wrAcb2 d => exact .inr ⟨d, .inr (.inr rfl)⟩
  | encode => exact .inl rfl
  | decode => cases h; exact absurd (triple_runDecode s.block) hne
  | check => cases h; exact absurd (triple_runCheck s.block) hne
  | _ => cases h; exact absurd rfl hne

/-- Settles O24: an idle step changes nothing, and a word is the transaction it decodes to. -/
theorem onlyNamedWritersChangeDataRegisters : Obligations.OnlyNamedWritersChangeDataRegisters := by
  intro s
  rcases step_cases s with ⟨-, hstep⟩ | ⟨w, rest, hp, hstep⟩ | ⟨rest, hp, hstep⟩
  · exact ⟨s, hstep, fun hne => absurd rfl hne, fun hne => absurd rfl hne⟩
  · have hexec := exec_decodeWord w { s with pending := rest }
    exact ⟨_, hstep.trans hexec,
      fun hne => .inl ⟨w, rest, hp, exec_changes_mat (s := { s with pending := rest }) hexec hne⟩,
      fun hne => .inl ⟨w, rest, hp, exec_changes_triple (s := { s with pending := rest }) hexec hne⟩⟩
  · exact ⟨_, hstep, fun _ => .inr ⟨rest, hp⟩, fun _ => .inr ⟨rest, hp⟩⟩

theorem writeMatLo_idem (d : Byte) (b : Block) : (b.writeMatLo d).writeMatLo d = b.writeMatLo d := by
  have hmat : ((b.writeMatLo d).writeMatLo d).mat = (b.writeMatLo d).mat := mat_eq_of_memRead (by simp) (by simp)
  exact congrArg (fun m => { b with mat := m }) hmat

theorem writeMatHi_idem (d : Byte) (b : Block) : (b.writeMatHi d).writeMatHi d = b.writeMatHi d := by
  have hmat : ((b.writeMatHi d).writeMatHi d).mat = (b.writeMatHi d).mat := mat_eq_of_memRead (by simp) (by simp)
  exact congrArg (fun m => { b with mat := m }) hmat

theorem runDecode_runDecode (b : Block) : b.runDecode.runDecode = b.runDecode := by
  by_cases h : violations b.triple = 0
  · rw [runDecode_of_valid h]
    exact runDecode_of_valid (b := { b with mat := extract b.triple, status := Status.success }) h
  · rw [runDecode_of_violation h]
    exact runDecode_of_violation (b := b.raise _) h

theorem runCheck_runCheck (b : Block) : b.runCheck.runCheck = b.runCheck := by
  by_cases h : violations b.triple = 0
  · rw [runCheck_of_valid h]
    exact runCheck_of_valid (b := b.succeed) h
  · rw [runCheck_of_violation h]
    exact runCheck_of_violation (b := b.raise _) h

/-- Settles O26: the matrix writes, DECODE and CHECK by their lemmas; the others store what they have stored. -/
theorem transactionIsIdempotent : Obligations.TransactionIsIdempotent := by
  intro i s
  cases i with
  | wrMatLo d => exact ⟨_, _, rfl, rfl, writeMatLo_idem d s.block⟩
  | wrMatHi d => exact ⟨_, _, rfl, rfl, writeMatHi_idem d s.block⟩
  | decode => exact ⟨_, _, rfl, rfl, runDecode_runDecode s.block⟩
  | check => exact ⟨_, _, rfl, rfl, runCheck_runCheck s.block⟩
  | _ => exact ⟨_, _, rfl, rfl, rfl⟩

end Sys2Proof.Machine
end

section
/-! PROOFS. Invariants over steps and programs: the STATUS bytes that can occur (spec/10_state.md R32), the record of the
last command (60_exceptions.md R158), and registers that agree (10_state.md R33). -/

namespace Sys2Proof.Machine

/-- Settles O31, over the 64 values of the six bits, VIOL last. -/
theorem legalStatusMeansTheStatedRelations : Obligations.LegalStatusMeansTheStatedRelations := by
  rintro ⟨valid, err, viol⟩
  unfold Status.Legal
  revert viol
  cases valid <;> cases err <;> decide

theorem legal_success : Status.success.Legal :=
  (legalStatusMeansTheStatedRelations _).mpr (by decide)

theorem legal_illegalCommand : (Status.ofError .illegalCommand).Legal :=
  (legalStatusMeansTheStatedRelations _).mpr (by decide)

/-- The record of a failed DECODE or CHECK is legal because it names a violation. -/
theorem legal_redundancyViolation {v : Viol} (hv : v ≠ 0) : (Status.ofError (.redundancyViolation v)).Legal :=
  (legalStatusMeansTheStatedRelations _).mpr ⟨nofun, ⟨fun _ => hv, fun _ => rfl⟩, nofun⟩

/-- Settles O30, by the relations of O31. -/
theorem statusLegalAtReset : Obligations.StatusLegalAtReset :=
  (legalStatusMeansTheStatedRelations _).mpr (by decide)

theorem legal_runCheck (b : Block) : b.runCheck.status.Legal := by
  rcases runCheck_cases b with ⟨-, h⟩ | ⟨hne, h⟩
  · rw [h]; exact legal_success
  · rw [h]; exact legal_redundancyViolation hne

theorem legal_runDecode (b : Block) : b.runDecode.status.Legal :=
  status_runCheck_eq_status_runDecode b ▸ legal_runCheck b

theorem exec_keeps_legal {i : Instr} {s t : State} (h : exec i s = .next t) (hs : s.block.status.Legal) :
    t.block.status.Legal := by
  cases i with
  | decode => cases h; exact legal_runDecode s.block
  | encode => cases h; exact legal_success
  | check => cases h; exact legal_runCheck s.block
  | cmdReserved code => cases h; exact legal_illegalCommand
  | _ => cases h; exact hs

/-- Settles O29: an idle step keeps STATUS, a transaction keeps it legal, and its reset value is legal. -/
theorem statusStaysLegal : Obligations.StatusStaysLegal := by
  intro s t hs ht
  rcases step_cases s with ⟨-, hstep⟩ | ⟨w, rest, -, hstep⟩ | ⟨rest, -, hstep⟩
  · rw [hstep] at ht
    cases ht
    exact hs
  · exact exec_keeps_legal (hstep.symm.trans ht) hs
  · rw [hstep] at ht
    cases ht
    exact statusLegalAtReset

/-- Settles O32: each word of the program keeps the record. -/
theorem recordPersistsUntilNextCommand : Obligations.RecordPersistsUntilNextCommand := fun ws s hws =>
  ⟨_, run_withProgram ws s, issue_keeps (P := fun t => t.block.status = s.block.status)
    (fun w hw t ht => (transact_keeps_status (hws w hw) t).trans ht) rfl⟩

theorem coherent_runEncode (b : Block) : b.runEncode.Coherent := rfl

/-- A field that encodes MAT is valid (R89). -/
theorem valid_of_coherent {b : Block} (hb : b.Coherent) : b.triple.Valid := by
  rw [hb]
  exact encodeMat_valid b.mat

theorem coherent_of_frame {b b' : Block} (htriple : b'.triple = b.triple) (hmat : b'.mat = b.mat) (hb : b.Coherent) :
    b'.Coherent := by
  rw [Block.Coherent, htriple, hmat]
  exact hb

/-- A DECODE of a valid field makes the registers agree, whatever MAT held. -/
theorem coherent_runDecode {b : Block} (hb : b.triple.Valid) : b.runDecode.Coherent := by
  rw [runDecode_of_valid ((valid_iff_violations_eq_zero _).mp hb)]
  exact (encodeMat_extract hb).symm

/-- A DECODE that is trusted was one of a valid field (R166). -/
theorem valid_of_trusted_runDecode {b : Block} (hb : b.runDecode.ResultTrusted) : b.triple.Valid := by
  rcases runDecode_cases b with ⟨hvalid, -⟩ | ⟨-, herr⟩
  · exact (valid_iff_violations_eq_zero _).mpr hvalid
  · rw [herr] at hb
    cases hb

theorem exec_keeps_coherent {i : Instr} (hi : i.writesData = false) {s t : State} (h : exec i s = .next t)
    (hs : s.block.Coherent) : t.block.Coherent := by
  cases i with
  | wrAcb0 d | wrAcb1 d | wrAcb2 d | wrMatLo d | wrMatHi d => cases hi
  | decode => cases h; exact coherent_runDecode (valid_of_coherent hs)
  | encode => cases h; exact coherent_runEncode s.block
  | check => cases h; exact coherent_of_frame (triple_runCheck s.block) (mat_runCheck s.block) hs
  | _ => cases h; exact hs

theorem issue_keeps_coherent {ws : List TxnWord} (hws : ∀ v ∈ ws, (decodeWord v).writesData = false) {s : State}
    (hs : s.block.Coherent) : (s.issue ws).block.Coherent :=
  issue_keeps (P := fun t => t.block.Coherent)
    (fun w hw t ht => exec_keeps_coherent (hws w hw) (exec_decodeWord w t) ht) hs

/-- Settles O33: the first word, or the reset, makes the registers agree, and the other words keep it so. -/
theorem registersStayCoherent : Obligations.RegistersStayCoherent := by
  refine ⟨fun w ws s hw hws => ?_, fun ws hws => ?_⟩
  · have hfirst : (s.transact w).block.Coherent := by
      rcases hw with hw | ⟨hw, htrusted⟩
      · rw [eq_transact_of_exec hw rfl]
        exact coherent_runEncode s.block
      · rw [eq_transact_of_exec hw rfl] at htrusted ⊢
        exact coherent_runDecode (valid_of_trusted_runDecode htrusted)
    have hall := issue_keeps_coherent hws hfirst
    exact ⟨hall, valid_of_coherent hall⟩
  · have hreset : State.reset.block.Coherent := by
      unfold Block.Coherent
      decide
    have hall := issue_keeps_coherent hws hreset
    exact ⟨hall, valid_of_coherent hall⟩

end Sys2Proof.Machine
end

section
/-! PROOFS. The digits of the host assembler (spec/30_encoding.md R71, R72): what it writes for a byte, a matrix or a
register it reads back. -/

namespace Sys2Proof.Machine

@[simp] theorem hexValue_hexDigit (v : Nibble) : hexValue (hexDigit v) = some v.toNat := by
  revert v
  decide

@[simp] theorem hexDigits_cons_hexDigit (acc : Nat) (v : Nibble) (cs : List Char) :
    hexDigits acc (hexDigit v :: cs) = hexDigits (16 * acc + v.toNat) cs := by
  rw [hexDigits, hexValue_hexDigit]

theorem parseHex_byteText (b : Byte) : parseHex 2 (byteText b) = some b.toNat := by
  have hb := b.isLt
  have hlit : parseHex 2 (byteText b) = hexDigits 0 [hexDigit (b.extractLsb' 4 4), hexDigit (b.extractLsb' 0 4)] := rfl
  rw [hlit, hexDigits_cons_hexDigit, hexDigits_cons_hexDigit, hexDigits]
  simp only [BitVec.extractLsb'_toNat, Nat.shiftRight_eq_div_pow]
  congr 1
  omega

@[simp] theorem parseByte_byteText (b : Byte) : parseByte (byteText b) = some b := by
  rw [parseByte, parseHex_byteText, Option.map_some, BitVec.ofNat_toNat, BitVec.setWidth_eq]

@[simp] theorem parseHex_matText (m : Mat) : parseHex 3 (matText m) = some m.toNat := by
  have hm := m.isLt
  have hlit : parseHex 3 (matText m) =
      hexDigits 0 [hexDigit (m.extractLsb' 8 4), hexDigit (m.extractLsb' 4 4), hexDigit (m.extractLsb' 0 4)] := rfl
  rw [hlit, hexDigits_cons_hexDigit, hexDigits_cons_hexDigit, hexDigits_cons_hexDigit, hexDigits]
  simp only [BitVec.extractLsb'_toNat, Nat.shiftRight_eq_div_pow]
  congr 1
  omega

@[simp] theorem parseReg_name (reg : Reg) : parseReg (Reg.name reg) = some reg := by cases reg <;> decide

end Sys2Proof.Machine
end

section
/-! PROOFS. Tokens and comments of a line of host assembly (spec/30_encoding.md R71; log 7). -/

namespace Sys2Proof.Machine

/-- A character that stands in a token of more than a comma: no blank, no comma, and no start of a comment. -/
def isTokenChar (c : Char) : Bool := c != ' ' && c != '\t' && c != ',' && c != ';'

theorem tokenize_cons_of_isTokenChar {c : Char} (hc : isTokenChar c = true) (cur cs : List Char) :
    tokenize cur (c :: cs) = tokenize (cur ++ [c]) cs := by
  simp only [isTokenChar, Bool.and_eq_true, bne_iff_ne, ne_eq] at hc
  obtain ⟨⟨⟨hspace, htab⟩, hcomma⟩, -⟩ := hc
  simp [tokenize, hspace, htab, hcomma]

/-- The characters of a word join the token being read. -/
theorem tokenize_append_word {w : List Char} (hw : ∀ c ∈ w, isTokenChar c = true) (cur cs : List Char) :
    tokenize cur (w ++ cs) = tokenize (cur ++ w) cs := by
  induction w generalizing cur with
  | nil => simp
  | cons c w ih =>
    obtain ⟨hc, hw⟩ := List.forall_mem_cons.mp hw
    rw [List.cons_append, tokenize_cons_of_isTokenChar hc, ih hw, List.append_assoc, List.singleton_append]

/-- A token of more than a comma. -/
def isWord (w : List Char) : Bool := !w.isEmpty && w.all isTokenChar

theorem isTokenChar_of_isWord {w : List Char} (hw : isWord w = true) : ∀ c ∈ w, isTokenChar c = true := by
  rw [isWord, Bool.and_eq_true, List.all_eq_true] at hw
  exact hw.2

theorem flushToken_word {w : List Char} (hw : isWord w = true) : flushToken w = [w] := by
  rw [isWord, Bool.and_eq_true, Bool.not_eq_true', List.isEmpty_eq_false_iff] at hw
  exact if_neg hw.1

theorem tokenize_word {w : List Char} (hw : isWord w = true) : tokenize [] w = [w] := by
  have h := tokenize_append_word (isTokenChar_of_isWord hw) [] []
  rw [List.append_nil] at h
  rw [h]
  exact flushToken_word hw

theorem tokenize_word_space {w : List Char} (hw : isWord w = true) (cs : List Char) :
    tokenize [] (w ++ ' ' :: cs) = w :: tokenize [] cs := by
  rw [tokenize_append_word (isTokenChar_of_isWord hw)]
  exact congrArg (· ++ tokenize [] cs) (flushToken_word hw)

/-- A comma ends a word, and the blank behind it is no token. -/
theorem tokenize_word_comma {w : List Char} (hw : isWord w = true) (cs : List Char) :
    tokenize [] (w ++ ',' :: ' ' :: cs) = w :: [','] :: tokenize [] cs := by
  rw [tokenize_append_word (isTokenChar_of_isWord hw)]
  exact congrArg (· ++ [','] :: tokenize [] cs) (flushToken_word hw)

theorem isTokenChar_hexDigit (v : Nibble) : isTokenChar (hexDigit v) = true := by
  revert v
  decide

@[simp] theorem isWord_name (reg : Reg) : isWord (Reg.name reg) = true := by cases reg <;> rfl

@[simp] theorem isWord_byteText (b : Byte) : isWord (byteText b) = true := by
  simp only [isWord, byteText, List.all_cons, isTokenChar_hexDigit]
  rfl

@[simp] theorem isWord_matText (m : Mat) : isWord (matText m) = true := by
  simp only [isWord, matText, List.all_cons, isTokenChar_hexDigit]
  rfl

/-- A text in which no comment starts (R71). -/
def hasNoComment (line : List Char) : Bool := line.all (fun c => c != ';')

theorem stripComment_eq_self {line : List Char} (hline : hasNoComment line = true) : stripComment line = line :=
  List.takeWhile_eq_self_iff.mpr (List.all_eq_true.mp hline)

theorem stripComment_append {line : List Char} (hline : hasNoComment line = true) (comment : List Char) :
    stripComment (line ++ ';' :: comment) = line := by
  rw [stripComment, List.takeWhile_append_of_pos (List.all_eq_true.mp hline)]
  exact List.append_nil line

@[simp] theorem hasNoComment_append (line more : List Char) :
    hasNoComment (line ++ more) = (hasNoComment line && hasNoComment more) := List.all_append

theorem hasNoComment_of_isWord {w : List Char} (hw : isWord w = true) : hasNoComment w = true := by
  refine List.all_eq_true.mpr fun c hc => ?_
  have hchar := isTokenChar_of_isWord hw c hc
  rw [isTokenChar, Bool.and_eq_true] at hchar
  exact hchar.2

end Sys2Proof.Machine
end

section
/-! PROOFS. Every line of host assembly read back (spec/30_encoding.md R71, R72): its tokens, what they parse to, and the
words of a text. -/

namespace Sys2Proof.Machine

/-- The mnemonic of a line (R71, R72). -/
def AsmLine.mnemonic : AsmLine → List Char
  | .rd _ => ['r', 'd']
  | .wr _ _ => ['w', 'r']
  | .nop => ['n', 'o', 'p']
  | .decode => ['d', 'e', 'c', 'o', 'd', 'e']
  | .encode => ['e', 'n', 'c', 'o', 'd', 'e']
  | .check => ['c', 'h', 'e', 'c', 'k']
  | .cmd _ => ['c', 'm', 'd']
  | .ldacb _ => ['l', 'd', 'a', 'c', 'b']
  | .ldmat _ => ['l', 'd', 'm', 'a', 't']
  | .rdacb => ['r', 'd', 'a', 'c', 'b']
  | .rdmat => ['r', 'd', 'm', 'a', 't']
  | .rdst => ['r', 'd', 's', 't']

/-- The tokens behind the mnemonic, as the line's text has them. -/
def AsmLine.operands : AsmLine → List (List Char)
  | .rd reg => [Reg.name reg]
  | .wr reg data => [Reg.name reg, [','], byteText data]
  | .cmd code => [byteText code]
  | .ldacb t => [byteText t.b0, [','], byteText t.b1, [','], byteText t.b2]
  | .ldmat m => [matText m]
  | .nop | .decode | .encode | .check | .rdacb | .rdmat | .rdst => []

theorem isWord_mnemonic (l : AsmLine) : isWord l.mnemonic = true := by cases l <;> rfl

theorem foldCase_mnemonic (l : AsmLine) : foldCase l.mnemonic = l.mnemonic := by cases l <;> rfl

theorem tokenize_rd {reg : List Char} (hreg : isWord reg = true) :
    tokenize [] (['r', 'd', ' '] ++ reg) = [['r', 'd'], reg] := by
  rw [← tokenize_word hreg]
  exact tokenize_word_space (w := ['r', 'd']) rfl reg

theorem tokenize_wr {reg : List Char} (hreg : isWord reg = true) (data : Byte) :
    tokenize [] (['w', 'r', ' '] ++ reg ++ [',', ' '] ++ byteText data) = [['w', 'r'], reg, [','], byteText data] := by
  rw [List.append_assoc, List.append_assoc]
  calc tokenize [] (['w', 'r'] ++ ' ' :: (reg ++ ',' :: ' ' :: byteText data))
      = ['w', 'r'] :: tokenize [] (reg ++ ',' :: ' ' :: byteText data) := tokenize_word_space rfl _
    _ = [['w', 'r'], reg, [','], byteText data] := by
      rw [tokenize_word_comma hreg, tokenize_word (isWord_byteText data)]

theorem tokenize_ldacb (b0 b1 b2 : Byte) :
    tokenize [] (byteText b0 ++ ',' :: ' ' :: (byteText b1 ++ ',' :: ' ' :: byteText b2)) =
      [byteText b0, [','], byteText b1, [','], byteText b2] := by
  rw [tokenize_word_comma (isWord_byteText b0), tokenize_word_comma (isWord_byteText b1),
    tokenize_word (isWord_byteText b2)]

/-- The tokens of a line's text are its mnemonic and its operands. -/
theorem tokenize_text (l : AsmLine) : tokenize [] l.text = l.mnemonic :: l.operands := by
  have hspace : ∀ cs, tokenize [] (l.mnemonic ++ ' ' :: cs) = l.mnemonic :: tokenize [] cs :=
    tokenize_word_space (isWord_mnemonic l)
  cases l with
  | rd reg => exact tokenize_rd (isWord_name reg)
  | wr reg data => exact tokenize_wr (isWord_name reg) data
  | cmd code => exact (hspace (byteText code)).trans (congrArg _ (tokenize_word (isWord_byteText code)))
  | ldacb t => exact (hspace _).trans (congrArg _ (tokenize_ldacb t.b0 t.b1 t.b2))
  | ldmat m => exact (hspace (matText m)).trans (congrArg _ (tokenize_word (isWord_matText m)))
  | _ => exact tokenize_word rfl

/-- The parser reads a line back from its mnemonic and its operands. -/
theorem parseOp_operands (l : AsmLine) : parseOp l.mnemonic l.operands = some l := by
  cases l <;> simp [AsmLine.mnemonic, AsmLine.operands, parseOp, parseWr, parseLdacb, parseBare]

/-- R71: the mnemonic may stand in any mixture of cases. -/
theorem parseTokens_operands {op : List Char} {l : AsmLine} (hop : foldCase op = l.mnemonic) :
    parseTokens (op :: l.operands) = some l := by
  rw [parseTokens, hop, parseOp_operands]

theorem hasNoComment_text (l : AsmLine) : hasNoComment l.text = true := by
  have hname := fun reg => hasNoComment_of_isWord (isWord_name reg)
  have hbyte := fun b => hasNoComment_of_isWord (isWord_byteText b)
  have hmat := fun m => hasNoComment_of_isWord (isWord_matText m)
  cases l <;> simp only [AsmLine.text, hasNoComment_append, hname, hbyte, hmat, Bool.and_true] <;> rfl

/-- A text whose tokens parse to a line assembles to the words of that line. -/
theorem assembleLine_of_tokens {line op : List Char} {args : List (List Char)} {l : AsmLine}
    (htokens : tokenize [] (stripComment line) = op :: args) (hparse : parseTokens (op :: args) = some l) :
    assembleLine line = some l.words := by
  simp only [assembleLine, htokens, hparse, Option.map_some]

/-- What the model reads of any text that is a line's text once its comment is off. -/
theorem reads_text {line : List Char} {l : AsmLine} (hstrip : stripComment line = l.text) :
    parseLine line = some l ∧ assembleLine line = some l.words := by
  have htokens : tokenize [] (stripComment line) = l.mnemonic :: l.operands := by rw [hstrip, tokenize_text]
  have hparse := parseTokens_operands (foldCase_mnemonic l)
  exact ⟨by rw [parseLine, htokens, hparse], assembleLine_of_tokens htokens hparse⟩

theorem assembleLine_text (l : AsmLine) : assembleLine l.text = some l.words :=
  (reads_text (stripComment_eq_self (hasNoComment_text l))).2

/-- R71: an `rd` line with any token that names the register. -/
theorem assembleLine_rd {tok : List Char} {reg : Reg} (hword : isWord tok = true) (hreg : parseReg tok = some reg) :
    assembleLine (['r', 'd', ' '] ++ tok) = some (AsmLine.rd reg).words := by
  have hplain : hasNoComment (['r', 'd', ' '] ++ tok) = true := by
    rw [hasNoComment_append, hasNoComment_of_isWord hword]
    rfl
  have hparse : parseTokens [['r', 'd'], tok] = (parseReg tok).map .rd := rfl
  refine assembleLine_of_tokens ?_ (hparse.trans (by rw [hreg, Option.map_some]))
  rw [stripComment_eq_self hplain, tokenize_rd hword]

/-- R71: a `wr` line with any token that names the register. -/
theorem assembleLine_wr {tok : List Char} {reg : Reg} (hword : isWord tok = true) (hreg : parseReg tok = some reg)
    (d : Byte) : assembleLine (['w', 'r', ' '] ++ tok ++ [',', ' '] ++ byteText d) = some (AsmLine.wr reg d).words := by
  have hplain : hasNoComment (['w', 'r', ' '] ++ tok ++ [',', ' '] ++ byteText d) = true := by
    simp only [hasNoComment_append, hasNoComment_of_isWord hword, hasNoComment_of_isWord (isWord_byteText d)]
    rfl
  have hparse : parseTokens [['w', 'r'], tok, [','], byteText d] = some (.wr reg d) := by
    have hop : parseTokens [['w', 'r'], tok, [','], byteText d] = parseWr [tok, [','], byteText d] := rfl
    simp [hop, parseWr, hreg]
  refine assembleLine_of_tokens ?_ hparse
  rw [stripComment_eq_self hplain, tokenize_wr hword]

/-- R71: the decimal addresses 0 to 7 name the registers. -/
theorem digit_names_register :
    ∀ p ∈ [('0', Reg.acb0), ('1', .acb1), ('2', .acb2), ('3', .rsvd3), ('4', .matLo), ('5', .matHi), ('6', .status),
      ('7', .cmd)], isWord [p.1] = true ∧ parseReg [p.1] = some p.2 := by
  simp only [List.forall_mem_cons]
  exact ⟨⟨rfl, rfl⟩, ⟨rfl, rfl⟩, ⟨rfl, rfl⟩, ⟨rfl, rfl⟩, ⟨rfl, rfl⟩, ⟨rfl, rfl⟩, ⟨rfl, rfl⟩, ⟨rfl, rfl⟩, nofun⟩

/-- R71: a program is assembled line by line. -/
theorem assemble_texts (ls : List AsmLine) : assemble (ls.map AsmLine.text) = some (asmWords ls) := by
  induction ls with
  | nil => rfl
  | cons l ls ih => simp only [List.map_cons, assemble, assembleLine_text, ih, asmWords_cons]

/-- Settles O53: a line's text has the tokens of the line with or without a comment behind it, and a decimal address
names its register. -/
theorem assemblerReadsEveryLine : Obligations.AssemblerReadsEveryLine := by
  refine ⟨fun l => ?line, fun p hp => ?digits, assemble_texts⟩
  case line =>
    have hplain := hasNoComment_text l
    obtain ⟨hparse, hwords⟩ := reads_text (stripComment_eq_self hplain)
    exact ⟨hparse, hwords, fun comment => reads_text (stripComment_append hplain comment),
      l.mnemonic, l.operands, tokenize_text l, fun _ hop => parseTokens_operands hop⟩
  case digits =>
    obtain ⟨hword, hreg⟩ := digit_names_register p hp
    exact ⟨assembleLine_rd hword hreg, assembleLine_wr hword hreg⟩

end Sys2Proof.Machine
end
